-- ==== Sys2Proof/Word.lean ====
section
/-! DEFINITION. The words and byte sequences of the controller (00_scope.md R7, R9). -/

namespace Sys2Proof

/-- A byte: 8 bits, unsigned (R9). -/
abbrev Byte := BitVec 8

/-- One bus word: 32 bits (R7, R67). -/
abbrev Word := BitVec 32

/-- A byte sequence; byte 0 is the first byte of the sequence (R9). A Block has `B` bytes, a nonce `B - 4`. -/
abbrev Bytes := List Byte

end Sys2Proof
end

