-- ==== Sys2Proof/Syntax.lean ====
section
/-! DEFINITION. The instructions: one constructor per row of spec/opcode_table.json. The six command words and the
illegal words are of format CMD, the rest are bus transactions, format BUS (30_encoding.md R90, R91). -/

namespace Sys2Proof

/-- A host instruction. -/
inductive Instr where
  /-- CMD word 0: no operation (R170). -/
  | nop
  /-- CMD word 1: initialise the counter from the nonce (R110). -/
  | init
  /-- CMD word 2: increment the counter (R113). -/
  | inc
  /-- CMD word 3: begin a message (R140). -/
  | start
  /-- CMD word 4: process the next chunk (R145). -/
  | block
  /-- CMD word 5: abandon the message and clear the error (R171). -/
  | abort
  /-- Any other CMD word `w` (R92). -/
  | illegal (w : Word)
  /-- A bus write of `d` to CMD: decode `d` and run that command (R210). -/
  | wrCmd (d : Word)
  /-- A bus write to INTEN (R175). -/
  | wrInten (d : Word)
  /-- A bus write to NONCE_LEN (R175). -/
  | wrNonceLen (d : Word)
  /-- A bus write to MSG_LEN_LO (R175). -/
  | wrMsgLenLo (d : Word)
  /-- A bus write to MSG_LEN_HI (R175). -/
  | wrMsgLenHi (d : Word)
  /-- A bus write to CTR: load the counter integer (R116). -/
  | wrCtr (d : Word)
  /-- A bus write to the address of NONCEk, implemented or not (R175). -/
  | wrNonce (k : Fin 8) (d : Word)
  /-- A bus write to the address of DINk, implemented or not (R175). -/
  | wrDin (k : Fin 8) (d : Word)
  /-- A bus write to any other address: misaligned, read-only or reserved (R67, R68). -/
  | wrOther (a : BitVec 8) (d : Word)
  /-- A bus read of address `a` (R176). -/
  | rd (a : BitVec 8)
  deriving DecidableEq, Repr

end Sys2Proof
end

