-- ==== Sys2Proof/WellFormed.lean ====
section
/-! DEFINITION. Which instruction terms stand for a word or a transaction of the spec: an `illegal` word is one no
command has (R92), and `wrOther` goes to an address no other write row names (opcode table, WR_OTHER). -/

namespace Sys2Proof

/-- A CMD word is illegal when OPCODE >= 6 or RSVD is not 0 (R92). -/
def illegalWord (w : Word) : Bool :=
  6 ≤ (w.extractLsb' 0 4).toNat || w.extractLsb' 4 28 != 0

/-- The write addresses with a row of their own in the opcode table: CMD, INTEN, NONCE_LEN, MSG_LEN_LO, MSG_LEN_HI,
CTR, and the words 0x40+4k and 0x80+4k for k in 0..7. -/
def namedWriteAddr (a : BitVec 8) : Bool :=
  a == 0x08 || a == 0x10 || a == 0x14 || a == 0x18 || a == 0x1C || a == 0x28
    || (a &&& 0xE3) == 0x40 || (a &&& 0xE3) == 0x80

/-- The checks of well-formedness. -/
def Instr.wellFormed : Instr → Bool
  | .nop | .init | .inc | .start | .block | .abort => true
  | .illegal w => illegalWord w
  | .wrCmd _ | .wrInten _ | .wrNonceLen _ | .wrMsgLenLo _ | .wrMsgLenHi _ | .wrCtr _ => true
  | .wrNonce _ _ | .wrDin _ _ => true
  | .wrOther a _ => !namedWriteAddr a
  | .rd _ => true

end Sys2Proof
end

