-- ==== Sys2Proof/Decode.lean ====
section
/-! DEFINITION. The decoder, from CMD words (30_encoding.md R93) and bus transactions (R90, 43_control.md R175, R176)
to instructions, total, with the frames it refuses refused by name; and the encoder, from the same tables. -/

namespace Sys2Proof

/-- What a CMD word decodes to (R93). -/
inductive Cmd where
  | nop | init | inc | start | block | abort | illegal
  deriving DecidableEq, Repr

/-- One host bus transaction `(we, addr, data)` (R90). Of a read, the data is not looked at. -/
structure BusTxn where
  we : Bool
  addr : BitVec 8
  data : Word
  deriving DecidableEq, Repr

/-- The two formats of R90. -/
inductive Frame where
  | cmd (w : Word)
  | bus (t : BusTxn)
  deriving DecidableEq, Repr

/-- Why a numbered bit string is no frame. -/
inductive FrameReject where
  /-- No format has this many bits (R96). -/
  | noSuchLength
  /-- A bit beyond the format's own bits is set. -/
  | bitsOutsideFrame
  deriving DecidableEq, Repr

/-! ## The decoder -/

/-- The decoder of CMD words, total on every 32-bit word (R93). -/
def decodeCmd (w : Word) : Cmd :=
  if w.extractLsb' 4 28 ≠ 0 then .illegal
  else match (w.extractLsb' 0 4).toNat with
    | 0 => .nop
    | 1 => .init
    | 2 => .inc
    | 3 => .start
    | 4 => .block
    | 5 => .abort
    | _ => .illegal

/-- The instruction of a command; `w` is the word it was decoded from. -/
def Cmd.instr (w : Word) : Cmd → Instr
  | .nop => .nop
  | .init => .init
  | .inc => .inc
  | .start => .start
  | .block => .block
  | .abort => .abort
  | .illegal => .illegal w

/-- The window slot of an address: `k = addr[4:2]` (opcode table, WR_NONCEk and WR_DINk). -/
def slotOf (a : BitVec 8) : Fin 8 := (a.extractLsb' 2 3).toFin

/-- A write goes to the row of its address (R175); the masks are those of the opcode table. -/
def decodeWrite (a : BitVec 8) (d : Word) : Instr :=
  if a = 0x08 then .wrCmd d
  else if a = 0x10 then .wrInten d
  else if a = 0x14 then .wrNonceLen d
  else if a = 0x18 then .wrMsgLenLo d
  else if a = 0x1C then .wrMsgLenHi d
  else if a = 0x28 then .wrCtr d
  else if a &&& 0xE3 = 0x40 then .wrNonce (slotOf a) d
  else if a &&& 0xE3 = 0x80 then .wrDin (slotOf a) d
  else .wrOther a d

/-- The decoder of bus transactions (R90). -/
def decodeBus (t : BusTxn) : Instr :=
  if t.we then decodeWrite t.addr t.data else .rd t.addr

/-- The decoder, total on the frames of both formats. -/
def decode : Frame → Instr
  | .cmd w => (decodeCmd w).instr w
  | .bus t => decodeBus t

/-- The bus transaction that carries a frame: a CMD word is a write of it to offset 0x08 (R90). -/
def Frame.txn : Frame → BusTxn
  | .cmd w => ⟨true, 0x08, w⟩
  | .bus t => t

/-- The frame of a string of `nbits` bits numbered from 0. 32 bits are a CMD word, and so are 8, of a table that counts the
opcode's byte only: the bits above them are 0. A BUS transaction has addr in
bits [7:0] and we in bit [8], as the opcode table numbers them; with 48 bits its data stands in bits [40:9], with 16
bits (the table gives the data no bits) its data is 0 (assumption log 6). -/
def parseFrame (nbits w : Nat) : Except FrameReject Frame :=
  if nbits = 8 ∨ nbits = 32 then
    if w < 2 ^ nbits then .ok (.cmd (BitVec.ofNat 32 w)) else .error .bitsOutsideFrame
  else if nbits = 16 ∨ nbits = 48 then
    if w < 2 ^ (if nbits = 16 then 9 else 41) then
      .ok (.bus ⟨w.testBit 8, BitVec.ofNat 8 w, BitVec.ofNat 32 (w >>> 9)⟩)
    else .error .bitsOutsideFrame
  else .error .noSuchLength

/-- The instruction the decoder reads from an instruction whose bits are `w`, numbered as the opcode table numbers
them. -/
def decodeTableWord (nbits w : Nat) : Option Instr :=
  match parseFrame nbits w with
  | .ok f => some (decode f)
  | .error _ => none

/-! ## The encoder -/

/-- The address of slot `k` of the window that begins at `base` (R62). -/
def windowAddr (base : BitVec 8) (k : Fin 8) : BitVec 8 := base + BitVec.ofNat 8 (4 * k.val)

/-- The frame of an instruction, from the tables of R91 and R175; a read carries the data word 0. -/
def encode : Instr → Frame
  | .nop => .cmd 0x00000000
  | .init => .cmd 0x00000001
  | .inc => .cmd 0x00000002
  | .start => .cmd 0x00000003
  | .block => .cmd 0x00000004
  | .abort => .cmd 0x00000005
  | .illegal w => .cmd w
  | .wrCmd d => .bus ⟨true, 0x08, d⟩
  | .wrInten d => .bus ⟨true, 0x10, d⟩
  | .wrNonceLen d => .bus ⟨true, 0x14, d⟩
  | .wrMsgLenLo d => .bus ⟨true, 0x18, d⟩
  | .wrMsgLenHi d => .bus ⟨true, 0x1C, d⟩
  | .wrCtr d => .bus ⟨true, 0x28, d⟩
  | .wrNonce k d => .bus ⟨true, windowAddr 0x40 k, d⟩
  | .wrDin k d => .bus ⟨true, windowAddr 0x80 k, d⟩
  | .wrOther a d => .bus ⟨true, a, d⟩
  | .rd a => .bus ⟨false, a, 0⟩

/-- The length of a frame in bits, in whole bytes (assumption log 6). -/
def Frame.nbits : Frame → Nat
  | .cmd _ => 32
  | .bus _ => 48

/-- The bits of a frame, numbered as `parseFrame` reads them. -/
def Frame.bits : Frame → Nat
  | .cmd w => w.toNat
  | .bus t => t.addr.toNat + 2 ^ 8 * t.we.toNat + 2 ^ 9 * t.data.toNat

end Sys2Proof
end

