-- ==== Sys2Proof/Config.lean ====
section
/-! DEFINITION. What is fixed for one controller (the block size, the identification constants, the base address)
and the draws of its environment (the input ports of a clock cycle). -/

namespace Sys2Proof

/-- The synthesis parameter of R6: `B = 4*(NW+1)` with NW in 1..7, so these seven block sizes and no other. -/
inductive BlockSize where
  | b8 | b12 | b16 | b20 | b24 | b28 | b32
  deriving DecidableEq, Repr

namespace BlockSize

/-- NW, the number of nonce words (R6). -/
def nw : BlockSize → Nat
  | b8 => 1 | b12 => 2 | b16 => 3 | b20 => 4 | b24 => 5 | b28 => 6 | b32 => 7

/-- B, the block size in bytes: `B = 4*(NW+1)` (R6). -/
def bytes (z : BlockSize) : Nat := 4 * (z.nw + 1)

/-- BW = B/4, the number of register words of a block (R6). -/
def bw (z : BlockSize) : Nat := z.bytes / 4

/-- B-4, the nonce length in bytes (R6). -/
def nonceBytes (z : BlockSize) : Nat := z.bytes - 4

/-- The reference configuration, B = 16 (R6). -/
def reference : BlockSize := b16

end BlockSize

/-- The input ports of R21 in one clock cycle. `coreRspBlock` is as wide as the widest block (32 bytes): of a
controller with block size B the wires [8B-1:0] exist, and no rule reads a wire above them (assumption log 9). -/
structure Ports where
  /-- synchronous reset, active high -/
  rst : Bool
  /-- a host access is presented this cycle -/
  busSel : Bool
  /-- 1 = write, 0 = read -/
  busWe : Bool
  /-- byte address within the register space -/
  busAddr : BitVec 8
  /-- write data -/
  busWdata : Word
  /-- the core accepts the request this cycle -/
  coreReqReady : Bool
  /-- the core presents a response this cycle -/
  coreRspValid : Bool
  /-- the keystream mask -/
  coreRspBlock : BitVec 256
  /-- the core reports a key-setup failure with this response -/
  coreRspErr : Bool
  /-- level: the core's installed key is invalid -/
  coreKeyErr : Bool
  deriving DecidableEq, Repr, Inhabited

/-- What the host, the core and the environment present in cycle `n` when the state scripts no inputs for it: a free
value. R13 and R8 give these agents no law and no bound, so nothing can be proved of it (assumption log 1). -/
opaque Config.envPorts : Nat → Ports

/-- BASE, the address of the register space in the host's physical map, set by the platform (R60): a free value
(assumption log 12). -/
opaque Config.base : Nat

/-- ID reads this constant, ASCII "CTR1" (R22). -/
def Config.idWord : Word := 0x43545231

/-- The number of blocks of the longest message: the counter integer has 32 bits (R141). -/
def Config.maxBlocks : Nat := 2 ^ 32

end Sys2Proof
end

