-- ==== Sys2Proof/Machine/State.lean ====
section
/-! DEFINITION. The state of the machine, as plain data: the controller of 10_state.md, what its bus answered last, and
the inputs its agents present. -/

namespace Sys2Proof.Machine

/-- The controller states of STATUS.STATE (R24, D8). The encodings 5..7 are never produced and have no constructor. -/
inductive CtlState where
  | idle | ready | busy | error | drain
  deriving DecidableEq, Repr

/-- The error codes of STATUS.ERRCODE (R200). The codes 6..15 are never produced and have no constructor. -/
inductive ErrCode where
  | none | invalidNonceLength | keySetup | plaintextTooLarge | illegalCmd | sequence
  deriving DecidableEq, Repr

/-- The state of the controller: the fields of R22 to R37 and no other (R42), beside the synthesis parameter. -/
structure Controller where
  /-- The block size B of this controller, constant (R6). -/
  size : BlockSize
  /-- STATUS.STATE (R24). -/
  state : CtlState
  /-- The counter block (R31); its last four bytes are the counter integer. -/
  ctrblk : Bytes
  /-- STATUS.CTRV: `ctrblk` holds a counter seeded from a nonce (R25). -/
  ctrv : Bool
  /-- The nonce registers (R31). -/
  nonce : Bytes
  /-- NONCE_LEN (R31). -/
  nonceLen : BitVec 6
  /-- MSG_LEN_HI:MSG_LEN_LO (R31). -/
  msgLen : BitVec 64
  /-- REMAIN_HI:REMAIN_LO, bytes of the current message not yet processed (R31). -/
  remain : BitVec 64
  /-- The input chunk (R31). -/
  din : Bytes
  /-- The output chunk (R31). -/
  dout : Bytes
  /-- STATUS.DOUTV (R26). -/
  doutv : Bool
  /-- STATUS.DONE (R27). -/
  done : Bool
  /-- STATUS.ERR (R28). -/
  err : Bool
  /-- STATUS.ERRCODE (R28). -/
  errcode : ErrCode
  /-- INTEN: bit 0 DOUTV_IE, bit 1 DONE_IE, bit 2 ERR_IE (R30). -/
  inten : BitVec 3
  /-- The working buffer, hidden (R32). -/
  wbuf : Bytes
  /-- The byte count of the chunk in flight, hidden (R33). -/
  wlen : Nat
  /-- The request latch, driven on core_req_block (R34). -/
  reqblk : Bytes
  /-- A request is presented and not yet accepted; drives core_req_valid (R35). -/
  reqPend : Bool
  /-- A request was accepted and its response has not arrived (R36). -/
  outst : Bool
  deriving DecidableEq, Repr

/-- `0^n`: n zero bytes. -/
def zeroBytes (n : Nat) : Bytes := List.replicate n 0

/-- The state that Reset leaves, with every field at the value of R250. -/
def Controller.resetOf (size : BlockSize) : Controller where
  size := size
  state := .idle
  ctrblk := zeroBytes size.bytes
  ctrv := false
  nonce := zeroBytes size.nonceBytes
  nonceLen := 0
  msgLen := 0
  remain := 0
  din := zeroBytes size.bytes
  dout := zeroBytes size.bytes
  doutv := false
  done := false
  err := false
  errcode := .none
  inten := 0
  wbuf := zeroBytes size.bytes
  wlen := 0
  reqblk := zeroBytes size.bytes
  reqPend := false
  outst := false

/-- The whole state of a step. -/
structure State where
  /-- The controller. -/
  st : Controller
  /-- The output port bus_rdata of the cycle last completed (R21). The model's own field (assumption log 4). -/
  busRdata : Word
  /-- The input ports of the cycles to come, the next one first. Inputs, not controller state (assumption log 1). -/
  inputs : List Ports
  /-- The number of cycles run, the index of the free draw for a cycle `inputs` does not script (assumption log 5). -/
  cycle : Nat
  deriving DecidableEq, Repr

/-- Why a step could stop with a fault. There is no constructor: every access and every command of this controller is
total (R206, D6), an error is a next state (R209), and so no step stops (assumption log 14). -/
inductive Fault where
  deriving DecidableEq, Repr

/-- Why an instruction could have no meaning. -/
inductive Refusal where
  /-- Raised by an arm of `exec` whose instruction has no meaning yet. No arm raises it. Safe: the machine stops. -/
  | notModelled (mnemonic : String)
  deriving DecidableEq, Repr

/-- The machine right after reset, in the reference configuration (R250, R6; assumption log 3). -/
def State.reset : State where
  st := Controller.resetOf BlockSize.reference
  busRdata := 0
  inputs := []
  cycle := 0

end Sys2Proof.Machine
end

