-- ==== Sys2Proof/Machine/Operands.lean ====
section
/-! DEFINITION. Operands: byte sequences read by position, the big-endian words of R10, the counter functions of
40_counter.md, the mixer of 41_mixer.md, and the block vectors of the core port (R65). -/

namespace Sys2Proof.Machine

/-- Byte `j` of a sequence (R9). -/
def byteAt (b : Bytes) (j : Nat) : Byte := b.getD j 0

/-- The sequence of `n` bytes whose byte `j` is `f j`. -/
def mkBytes (n : Nat) (f : Nat → Byte) : Bytes := (List.range n).map f

/-! ## Big-endian words (R10, R63, R64) -/

/-- `BE32(b0,b1,b2,b3)` (R10). -/
def be32 (b0 b1 b2 b3 : Byte) : Word :=
  BitVec.ofNat 32 (b0.toNat * 2 ^ 24 + b1.toNat * 2 ^ 16 + b2.toNat * 2 ^ 8 + b3.toNat)

/-- Byte `i` of `BE32enc(v)`: `v[31:24]`, `v[23:16]`, `v[15:8]`, `v[7:0]` for i = 0..3 (R10). -/
def be32Byte (v : Word) (i : Nat) : Byte := v.extractLsb' (24 - 8 * i) 8

/-- `BE32enc(v)` (R10). -/
def be32enc (v : Word) : Bytes := mkBytes 4 (be32Byte v)

/-- `word(buf, k)`: byte 4k in bits [31:24] (R10, R64). -/
def wordAt (buf : Bytes) (k : Nat) : Word :=
  be32 (byteAt buf (4 * k)) (byteAt buf (4 * k + 1)) (byteAt buf (4 * k + 2)) (byteAt buf (4 * k + 3))

/-- `setword(buf, k, d)`, of a buffer of `n` bytes: bytes 4k..4k+3 replaced by `BE32enc(d)` (R10, R95). -/
def setWord (n : Nat) (buf : Bytes) (k : Nat) (d : Word) : Bytes :=
  mkBytes n fun j => if 4 * k ≤ j ∧ j < 4 * k + 4 then be32Byte d (j - 4 * k) else byteAt buf j

/-! ## The counter block (R10, R111, R114) -/

/-- `ctr(blk)`, the counter integer: the last four bytes of a block of `B` bytes, big-endian (R10, R63). -/
def ctrOf (B : Nat) (blk : Bytes) : Word :=
  be32 (byteAt blk (B - 4)) (byteAt blk (B - 3)) (byteAt blk (B - 2)) (byteAt blk (B - 1))

/-- `setctr(blk, v)`: the prefix unchanged, the last four bytes `BE32enc(v)` (R10). -/
def setCtr (B : Nat) (blk : Bytes) (v : Word) : Bytes :=
  mkBytes B fun j => if j < B - 4 then byteAt blk j else be32Byte v (j - (B - 4))

/-- `initCounter(nonce)`: the nonce, then the four bytes 0x00000001 (R111). -/
def initCounter (B : Nat) (nonce : Bytes) : Bytes := setCtr B nonce 1

/-- `incCounter(blk)`: the counter integer plus 1 modulo 2^32, the prefix unchanged (R114). -/
def incCounter (B : Nat) (blk : Bytes) : Bytes := setCtr B blk (ctrOf B blk + 1)

/-! ## The mixer and the chunks (R130, R134, R10) -/

/-- `mix(w, m, n)` on blocks of `B` bytes: byte j is `w[j] XOR m[j]` below n, and 0 from n on (R130). -/
def mix (B : Nat) (w m : Bytes) (n : Nat) : Bytes :=
  mkBytes B fun j => if j < n then byteAt w j ^^^ byteAt m j else 0

/-- `ceil_div(a, b)` (R10). -/
def ceilDiv (a b : Nat) : Nat := (a + b - 1) / b

/-- The length of the next chunk: `min(B, remain)` (R134). -/
def chunkLen (B remain : Nat) : Nat := if B ≤ remain then B else remain

/-! ## Block vectors on the core port (R65): byte j is bits [8B-1-8j : 8B-8-8j] -/

/-- The block that a vector of 8*B bits carries. -/
def unpackBlock (B : Nat) (v : BitVec 256) : Bytes :=
  mkBytes B fun j => v.extractLsb' (8 * B - 8 - 8 * j) 8

/-- The vector that carries a block, byte 0 its most significant byte. -/
def packBlock (blk : Bytes) : BitVec 256 :=
  BitVec.ofNat 256 (blk.foldl (fun acc b => acc * 2 ^ 8 + b.toNat) 0)

end Sys2Proof.Machine
end

