-- ==== Sys2Proof/Machine/Flags.lean ====
section
/-! DEFINITION. The status register, the interrupt and the other views of the flags (10_state.md R24,
60_exceptions.md R200, R220). -/

namespace Sys2Proof.Machine

/-- STATUS.STATE (R24). -/
def CtlState.code : CtlState → BitVec 3
  | .idle => 0
  | .ready => 1
  | .busy => 2
  | .error => 3
  | .drain => 4

/-- STATUS.ERRCODE (R200). -/
def ErrCode.code : ErrCode → BitVec 4
  | .none => 0
  | .invalidNonceLength => 1
  | .keySetup => 2
  | .plaintextTooLarge => 3
  | .illegalCmd => 4
  | .sequence => 5

/-- A flag as the bit `i` of a word. -/
def flagBit (f : Bool) (i : Nat) : Word := (BitVec.ofBool f).setWidth 32 <<< i

/-- `REG[STATUS] = st.state | st.ctrv<<3 | st.doutv<<4 | st.done<<5 | st.err<<6 | st.errcode<<8` (R24). -/
def statusWord (c : Controller) : Word :=
  c.state.code.setWidth 32 ||| flagBit c.ctrv 3 ||| flagBit c.doutv 4 ||| flagBit c.done 5 ||| flagBit c.err 6
    ||| (c.errcode.code.setWidth 32 <<< 8)

/-- `REG[PARAM]`: B in [7:0] and B-4 in [15:8] (R23). -/
def paramWord (c : Controller) : Word :=
  BitVec.ofNat 32 c.size.nonceBytes <<< 8 ||| BitVec.ofNat 32 c.size.bytes

/-- `irq = (inten[0] & doutv) | (inten[1] & done) | (inten[2] & err)` (R220). -/
def Controller.irq (c : Controller) : Bool :=
  (c.inten.getLsbD 0 && c.doutv) || (c.inten.getLsbD 1 && c.done) || (c.inten.getLsbD 2 && c.err)

/-- The output `core_req_valid` (R146). -/
def Controller.coreReqValid (c : Controller) : Bool := c.reqPend

/-- The output `core_req_block`: `st.reqblk`, packed MSB-first (R146, R65). -/
def Controller.coreReqBlock (c : Controller) : BitVec 256 := packBlock c.reqblk

end Sys2Proof.Machine
end

