-- ==== Sys2Proof/Machine/AddressMap.lean ====
section
/-! DEFINITION. The register space (20_memory.md R60, R62): its registers by name, their addresses and access, and the
value each one reads (43_control.md R176). -/

namespace Sys2Proof.Machine

/-- The registers of R62. A window has eight slots, of which a controller implements the first NW or BW. -/
inductive Reg where
  | id | param | cmd | status | inten | nonceLen | msgLenLo | msgLenHi | remainLo | remainHi | ctr
  | nonce (k : Fin 8)
  | ctrblk (k : Fin 8)
  | din (k : Fin 8)
  | dout (k : Fin 8)
  deriving DecidableEq, Repr

/-- How the host may access a register (R62). -/
inductive Access where
  /-- read-only: a write is ignored -/
  | ro
  /-- read-write -/
  | rw
  /-- write-only: reads 0 -/
  | wo
  /-- read-write, the write under the conditions of R116 -/
  | rwConditional
  /-- no register: reads 0, a write is ignored (R68) -/
  | reserved
  deriving DecidableEq, Repr

/-- The byte offset of a register (R62). -/
def Reg.offset : Reg → BitVec 8
  | .id => 0x00
  | .param => 0x04
  | .cmd => 0x08
  | .status => 0x0C
  | .inten => 0x10
  | .nonceLen => 0x14
  | .msgLenLo => 0x18
  | .msgLenHi => 0x1C
  | .remainLo => 0x20
  | .remainHi => 0x24
  | .ctr => 0x28
  | .nonce k => windowAddr 0x40 k
  | .ctrblk k => windowAddr 0x60 k
  | .din k => windowAddr 0x80 k
  | .dout k => windowAddr 0xA0 k

/-- Whether a controller of size `z` implements a register (R62, R68). -/
def Reg.implemented (z : BlockSize) : Reg → Bool
  | .nonce k => k.val < z.nw
  | .ctrblk k | .din k | .dout k => k.val < z.bw
  | _ => true

/-- The access of a register (R62); a window slot that is not implemented is reserved (R68). -/
def Reg.access (z : BlockSize) (r : Reg) : Access :=
  if !r.implemented z then .reserved
  else match r with
    | .id | .param | .status | .remainLo | .remainHi | .ctrblk _ | .dout _ => .ro
    | .cmd => .wo
    | .ctr => .rwConditional
    | .inten | .nonceLen | .msgLenLo | .msgLenHi | .nonce _ | .din _ => .rw

/-- The register at an aligned address, `none` at a reserved one (R62). -/
def regAtAligned (a : BitVec 8) : Option Reg :=
  match a.extractLsb' 5 3 with
  | 0 =>
    match slotOf a with
    | 0 => some .id
    | 1 => some .param
    | 2 => some .cmd
    | 3 => some .status
    | 4 => some .inten
    | 5 => some .nonceLen
    | 6 => some .msgLenLo
    | 7 => some .msgLenHi
  | 1 =>
    match slotOf a with
    | 0 => some .remainLo
    | 1 => some .remainHi
    | 2 => some .ctr
    | _ => none
  | 2 => some (.nonce (slotOf a))
  | 3 => some (.ctrblk (slotOf a))
  | 4 => some (.din (slotOf a))
  | 5 => some (.dout (slotOf a))
  | _ => none

/-- The register at an address: a misaligned address names none (R67). -/
def regAt (a : BitVec 8) : Option Reg :=
  if a.extractLsb' 0 2 ≠ 0 then none else regAtAligned a

/-- `REG[NAME]`: what a read of the register returns; 0 for a window slot that is not implemented (R176, R68). -/
def readReg (c : Controller) (r : Reg) : Word :=
  if !r.implemented c.size then 0
  else match r with
    | .id => Config.idWord
    | .param => paramWord c
    | .cmd => 0
    | .status => statusWord c
    | .inten => c.inten.setWidth 32
    | .nonceLen => c.nonceLen.setWidth 32
    | .msgLenLo => c.msgLen.extractLsb' 0 32
    | .msgLenHi => c.msgLen.extractLsb' 32 32
    | .remainLo => c.remain.extractLsb' 0 32
    | .remainHi => c.remain.extractLsb' 32 32
    | .ctr => ctrOf c.size.bytes c.ctrblk
    | .nonce k => wordAt c.nonce k.val
    | .ctrblk k => wordAt c.ctrblk k.val
    | .din k => wordAt c.din k.val
    | .dout k => wordAt c.dout k.val

/-- `BusRead(a)`: 0 at a misaligned or reserved address, else the register's value (R67, R68, R176). -/
def busRead (c : Controller) (a : BitVec 8) : Word :=
  match regAt a with
  | some r => readReg c r
  | none => 0

/-! ## The host's physical map (R60) -/

/-- The host address of an offset: `BASE + offset` (R60). -/
def hostAddress (a : BitVec 8) : Nat := Config.base + a.toNat

/-- The offset that a host address selects, if it lies in the 256 bytes from BASE on (R60). DESIGN CHOICE, unsafe: no other
host address selects the register space; R71 leaves any aliasing to the platform (assumption log 19). -/
def hostSelect (p : Nat) : Option (BitVec 8) :=
  if Config.base ≤ p ∧ p < Config.base + 256 then some (BitVec.ofNat 8 (p - Config.base)) else none

end Sys2Proof.Machine
end

