-- ==== Sys2Proof/Machine/Ops.lean ====
section
/-! DEFINITION. The named operations over the state: error entry (60_exceptions.md R209) and ABORT beside it, the
legality of commands (R210), the core's steps (42_message.md), and the input ports of a cycle. -/

namespace Sys2Proof.Machine

/-! ## The state's own updates -/

/-- The state with another controller. -/
def State.setSt (s : State) (c : Controller) : State := { s with st := c }

/-- The state with another value on bus_rdata. -/
def State.setRdata (s : State) (v : Word) : State := { s with busRdata := v }

/-- The input ports of the current cycle: the first scripted ones, else the environment's free draw. -/
def State.ports (s : State) : Ports := s.inputs.headD (Config.envPorts s.cycle)

/-- The clock edge: the cycle's inputs are used up. -/
def State.endCycle (s : State) : State := { s with inputs := s.inputs.tail, cycle := s.cycle + 1 }

/-- The state with one more cycle of inputs before the scripted ones. -/
def State.present (s : State) (p : Ports) : State := { s with inputs := p :: s.inputs }

/-- An outcome's next state goes on; a fault or a refusal stands. -/
def andThen (o : Host.Outcome State Fault Refusal) (k : State → Host.Outcome State Fault Refusal) :
    Host.Outcome State Fault Refusal :=
  match o with
  | .next s => k s
  | .fault r => .fault r
  | .refused r => .refused r

/-! ## Error entry and its return -/

/-- A request is presented or accepted and not answered (R209, R171). -/
def Controller.inFlight (c : Controller) : Bool := c.reqPend || c.outst

/-- The clearing that error entry and ABORT share: output, flags, REMAIN, counter and working buffer (R209, R171). The
request (reqblk, reqPend, outst) and the staging registers are kept. -/
def Controller.discardWork (c : Controller) : Controller :=
  { c with
    dout := zeroBytes c.size.bytes, doutv := false, done := false
    remain := 0
    ctrblk := zeroBytes c.size.bytes, ctrv := false
    wbuf := zeroBytes c.size.bytes, wlen := 0 }

/-- `raise Error(code)`, error entry (R209): the first error wins. -/
def Controller.raiseError (c : Controller) (code : ErrCode) : Controller :=
  if c.err then c
  else { c.discardWork with
    err := true, errcode := code
    state := if c.inFlight then .drain else .error }

/-- What ABORT does, the only return from an error beside reset (R171, R214). -/
def Controller.abortWork (c : Controller) : Controller :=
  { c.discardWork with
    err := false, errcode := .none
    state := if c.inFlight then .drain else .idle }

/-! ## Which commands run (R210) -/

/-- In ERROR and DRAIN every command but ABORT, and a CTR write, has no effect (R173). -/
def Controller.deaf (c : Controller) : Bool := c.state = .error || c.state = .drain

/-- The legality table of R210, for IDLE, READY and BUSY. -/
def legal (m : Cmd) (c : Controller) : Bool :=
  match m with
  | .nop | .abort => true
  | .init | .start => c.state = .idle
  | .inc => c.state = .idle && c.ctrv
  | .block => c.state = .ready
  | .illegal => false

/-- A command or CTR write other than ABORT: no effect in ERROR and DRAIN, SEQUENCE where the table says no, and
otherwise its own rule (R210). -/
def Controller.guarded (c : Controller) (ok : Bool) (run : Controller → Controller) : Controller :=
  if c.deaf then c else if ok then run c else c.raiseError .sequence

/-! ## The core's steps -/

/-- `CoreAccept()` (R148). -/
def Controller.coreAccept (c : Controller) : Controller := { c with reqPend := false, outst := true }

/-- A response without an error completes a block (R150): output, one increment, and the end of the message when nothing
remains. -/
def Controller.completeBlock (c : Controller) (m : Bytes) : Controller :=
  let left := c.remain - BitVec.ofNat 64 c.wlen
  { c with
    outst := false
    dout := mix c.size.bytes c.wbuf m c.wlen, doutv := true
    ctrblk := incCounter c.size.bytes c.ctrblk
    remain := left
    wbuf := zeroBytes c.size.bytes, wlen := 0, reqblk := zeroBytes c.size.bytes
    state := if left = 0 then .idle else .ready
    done := if left = 0 then true else c.done }

/-- The request is over: `outst` and `reqblk` are cleared (R150, R152). -/
def Controller.endRequest (c : Controller) : Controller :=
  { c with outst := false, reqblk := zeroBytes c.size.bytes }

/-- `CoreRespond(m, e)`: in BUSY it completes the block or raises KEY_SETUP (R150, R151), in DRAIN it is discarded
(R152), and elsewhere no response is taken (R153; assumption log 7). -/
def Controller.coreRespond (c : Controller) (m : Bytes) (e : Bool) : Controller :=
  match c.state with
  | .busy => if e then c.endRequest.raiseError .keySetup else c.completeBlock m
  | .drain => { c.endRequest with state := if c.err then .error else .idle }
  | .idle | .ready | .error => c

/-- What the core does to the controller in a cycle with ports `p` (R40, 2 and 3): acceptance, then a response if a
request was outstanding at the start of the cycle. -/
def Controller.corePhase (c : Controller) (p : Ports) : Controller :=
  let c1 := if c.reqPend && p.coreReqReady then c.coreAccept else c
  if p.coreRspValid && c.outst then c1.coreRespond (unpackBlock c.size.bytes p.coreRspBlock) p.coreRspErr else c1

/-! ## Presenting a transaction -/

/-- The transaction on the bus ports. -/
def portsTxn (p : Ports) : BusTxn := ⟨p.busWe, p.busAddr, p.busWdata⟩

/-- The ports with a bus transaction and neither reset nor a core step; core_key_err is a level and stays. -/
def portsWithTxn (p : Ports) (t : BusTxn) : Ports :=
  { p with
    rst := false, busSel := true, busWe := t.we, busAddr := t.addr, busWdata := t.data
    coreReqReady := false, coreRspValid := false }

/-- The state in which a frame is presented in the very next cycle (assumption log 6). -/
def State.presentFrame (s : State) (f : Frame) : State := s.present (portsWithTxn s.ports f.txn)

/-- The state in which the frame of `nbits` bits `w` is presented in the very next cycle; `s` where they are none. -/
def State.presentWord (s : State) (nbits w : Nat) : State :=
  match parseFrame nbits w with
  | .ok f => s.presentFrame f
  | .error _ => s

end Sys2Proof.Machine
end

