-- ==== Sys2Proof/Machine/Control.lean ====
section
/-! DEFINITION. The control family: NOP, ABORT and the illegal words (43_control.md, 30_encoding.md R92). -/

namespace Sys2Proof.Machine

/-- NOP (R170): no effect in any state. -/
def execNop (s : State) : Host.Outcome State Fault Refusal :=
  .next (s.setSt (s.st.guarded (legal .nop s.st) id))

/-- ABORT (R171): acts in every state. -/
def execAbort (s : State) : Host.Outcome State Fault Refusal :=
  .next (s.setSt s.st.abortWork)

/-- An illegal word (R92, R204): ILLEGAL_CMD in IDLE, READY and BUSY, ignored in ERROR and DRAIN. What the word is does
not matter further. -/
def execIllegal (_w : Word) (s : State) : Host.Outcome State Fault Refusal :=
  .next (s.setSt (if s.st.deaf then s.st else s.st.raiseError .illegalCmd))

end Sys2Proof.Machine
end

