-- ==== Sys2Proof/Machine/Counter.lean ====
section
/-! DEFINITION. The counter family: INIT, INC and the CTR write (40_counter.md). -/

namespace Sys2Proof.Machine

/-- INIT's own rule (R110): seed the counter, if the declared nonce length is B-4 (R112). -/
def Controller.runInit (c : Controller) : Controller :=
  if c.nonceLen.toNat ≠ c.size.nonceBytes then c.raiseError .invalidNonceLength
  else { c with ctrblk := initCounter c.size.bytes c.nonce, ctrv := true }

/-- INIT (R110). -/
def execInit (s : State) : Host.Outcome State Fault Refusal :=
  .next (s.setSt (s.st.guarded (legal .init s.st) Controller.runInit))

/-- INC's own rule (R113). -/
def Controller.runInc (c : Controller) : Controller :=
  { c with ctrblk := incCounter c.size.bytes c.ctrblk }

/-- INC (R113). -/
def execInc (s : State) : Host.Outcome State Fault Refusal :=
  .next (s.setSt (s.st.guarded (legal .inc s.st) Controller.runInc))

/-- The CTR write (R116): the counter integer is loaded and the prefix kept in IDLE with CTRV = 1; SEQUENCE in IDLE
with CTRV = 0 and in READY and BUSY; no effect in ERROR and DRAIN. It has the legality of INC (R210). -/
def execWrCtr (d : Word) (s : State) : Host.Outcome State Fault Refusal :=
  .next (s.setSt (s.st.guarded (legal .inc s.st) fun c => { c with ctrblk := setCtr c.size.bytes c.ctrblk d }))

end Sys2Proof.Machine
end

