-- ==== Sys2Proof/Machine/Message.lean ====
section
/-! DEFINITION. The message family: START and BLOCK (42_message.md). The completion of a block is the core's step,
`Controller.coreRespond`. -/

namespace Sys2Proof.Machine

/-- START's own rule (R140) with the level `keyErr` of core_key_err: the checks in the order of R211, then a message
begins, or is complete at once when it is empty (R142). -/
def Controller.runStart (keyErr : Bool) (c : Controller) : Controller :=
  if c.nonceLen.toNat ≠ c.size.nonceBytes then c.raiseError .invalidNonceLength
  else if c.msgLen.toNat > Config.maxBlocks * c.size.bytes then c.raiseError .plaintextTooLarge
  else if keyErr then c.raiseError .keySetup
  else { c with
    ctrblk := initCounter c.size.bytes c.nonce, ctrv := true
    remain := c.msgLen
    dout := zeroBytes c.size.bytes, doutv := false
    done := if c.msgLen = 0 then true else false
    state := if c.msgLen = 0 then .idle else .ready }

/-- START (R140). -/
def execStart (s : State) : Host.Outcome State Fault Refusal :=
  .next (s.setSt (s.st.guarded (legal .start s.st) (Controller.runStart s.ports.coreKeyErr)))

/-- BLOCK's own rule, the issue half (R145): copy the chunk and the counter block, and present the request. -/
def Controller.runBlock (c : Controller) : Controller :=
  { c with
    wbuf := c.din
    wlen := chunkLen c.size.bytes c.remain.toNat
    reqblk := c.ctrblk
    reqPend := true
    dout := zeroBytes c.size.bytes, doutv := false
    state := .busy }

/-- BLOCK (R145). -/
def execBlock (s : State) : Host.Outcome State Fault Refusal :=
  .next (s.setSt (s.st.guarded (legal .block s.st) Controller.runBlock))

end Sys2Proof.Machine
end

