-- ==== Sys2Proof/Machine/Bus.lean ====
section
/-! DEFINITION. The bus family: the writes of R175 and the read of R176 (43_control.md). -/

namespace Sys2Proof.Machine

/-- `execCmd(d)`, a write to CMD (R210): in ERROR and DRAIN only the word 0x00000005 acts (R173); otherwise the word is
decoded (R93) and its command runs, with its own legality check. -/
def execWrCmd (d : Word) (s : State) : Host.Outcome State Fault Refusal :=
  if s.st.deaf then
    if d = 0x00000005 then execAbort s else .next s
  else match decodeCmd d with
    | .nop => execNop s
    | .init => execInit s
    | .inc => execInc s
    | .start => execStart s
    | .block => execBlock s
    | .abort => execAbort s
    | .illegal => execIllegal d s

/-- A write to INTEN: `st.inten <- d[2:0]` (R175, R30). -/
def execWrInten (d : Word) (s : State) : Host.Outcome State Fault Refusal :=
  .next (s.setSt { s.st with inten := d.extractLsb' 0 3 })

/-- A write to NONCE_LEN: `st.nonce_len <- d[5:0]` (R175, R95). -/
def execWrNonceLen (d : Word) (s : State) : Host.Outcome State Fault Refusal :=
  .next (s.setSt { s.st with nonceLen := d.extractLsb' 0 6 })

/-- A write to MSG_LEN_LO: the low word of `st.msg_len` (R175). -/
def execWrMsgLenLo (d : Word) (s : State) : Host.Outcome State Fault Refusal :=
  .next (s.setSt { s.st with msgLen := s.st.msgLen.extractLsb' 32 32 ++ d })

/-- A write to MSG_LEN_HI: the high word of `st.msg_len` (R175). -/
def execWrMsgLenHi (d : Word) (s : State) : Host.Outcome State Fault Refusal :=
  .next (s.setSt { s.st with msgLen := d ++ s.st.msgLen.extractLsb' 0 32 })

/-- A write to the address of NONCEk: word k of the nonce if k < NW, else no effect (R175, R68). -/
def execWrNonce (k : Fin 8) (d : Word) (s : State) : Host.Outcome State Fault Refusal :=
  .next (if k.val < s.st.size.nw then
    s.setSt { s.st with nonce := setWord s.st.size.nonceBytes s.st.nonce k.val d } else s)

/-- A write to the address of DINk: word k of the input chunk if k < BW, else no effect (R175, R68). -/
def execWrDin (k : Fin 8) (d : Word) (s : State) : Host.Outcome State Fault Refusal :=
  .next (if k.val < s.st.size.bw then
    s.setSt { s.st with din := setWord s.st.size.bytes s.st.din k.val d } else s)

/-- A write to any other address has no effect: misaligned (R67), read-only or reserved (R68). -/
def execWrOther (_a : BitVec 8) (_d : Word) (s : State) : Host.Outcome State Fault Refusal :=
  .next s

/-- A read: its value stands on bus_rdata, and the controller does not change (R176, R70). -/
def execRd (a : BitVec 8) (s : State) : Host.Outcome State Fault Refusal :=
  .next (s.setRdata (busRead s.st a))

end Sys2Proof.Machine
end

