-- ==== Sys2Proof/Machine/Dispatch.lean ====
section
/-! DEFINITION. exec: the meaning of every instruction, one arm per constructor of Instr. -/

namespace Sys2Proof.Machine

/-- The meaning of an instruction at a state: one atomic step of the host (10_state.md R40). -/
def exec (i : Instr) (s : State) : Host.Outcome State Fault Refusal :=
  match i with
  | .nop => Sys2Proof.Machine.execNop s
  | .init => Sys2Proof.Machine.execInit s
  | .inc => Sys2Proof.Machine.execInc s
  | .start => Sys2Proof.Machine.execStart s
  | .block => Sys2Proof.Machine.execBlock s
  | .abort => Sys2Proof.Machine.execAbort s
  | .illegal w => Sys2Proof.Machine.execIllegal w s
  | .wrCmd d => Sys2Proof.Machine.execWrCmd d s
  | .wrInten d => Sys2Proof.Machine.execWrInten d s
  | .wrNonceLen d => Sys2Proof.Machine.execWrNonceLen d s
  | .wrMsgLenLo d => Sys2Proof.Machine.execWrMsgLenLo d s
  | .wrMsgLenHi d => Sys2Proof.Machine.execWrMsgLenHi d s
  | .wrCtr d => Sys2Proof.Machine.execWrCtr d s
  | .wrNonce k d => Sys2Proof.Machine.execWrNonce k d s
  | .wrDin k d => Sys2Proof.Machine.execWrDin k d s
  | .wrOther a d => Sys2Proof.Machine.execWrOther a d s
  | .rd a => Sys2Proof.Machine.execRd a s

end Sys2Proof.Machine
end

