-- ==== Sys2Proof/Machine/Cycle.lean ====
section
/-! DEFINITION. One clock cycle (10_state.md R40): the read of the state at its start, then reset, or else acceptance,
response and the host's write, in this order. -/

namespace Sys2Proof.Machine

/-- The output port bus_rdata: `BusRead(bus_addr)` when a read is presented, else 0 (R21). The read sees the state at the
start of the cycle (R40), in a cycle with reset too (R250). -/
def readPhase (s : State) : Host.Outcome State Fault Refusal :=
  let p := s.ports
  if p.busSel && !p.busWe then exec (decodeBus (portsTxn p)) (s.setRdata 0) else .next (s.setRdata 0)

/-- The host's write, the last event of the cycle (R40). -/
def writePhase (s : State) : Host.Outcome State Fault Refusal :=
  let p := s.ports
  if p.busSel && p.busWe then exec (decodeBus (portsTxn p)) s else .next s

/-- Everything after the read: reset replaces every other event; otherwise acceptance, response, write (R40). -/
def eventPhase (s : State) : Host.Outcome State Fault Refusal :=
  if s.ports.rst then .next (s.setSt (Controller.resetOf s.st.size))
  else writePhase (s.setSt (s.st.corePhase s.ports))

/-- One clock cycle. -/
def runCycle (s : State) : Host.Outcome State Fault Refusal :=
  andThen (andThen (readPhase s) eventPhase) fun s' => .next s'.endCycle

end Sys2Proof.Machine
end

