-- ==== Sys2Proof/Machine/Step.lean ====
section
/-! DEFINITION. step: one clock cycle of the machine; and how a host transaction is put where the next step takes it. -/

namespace Sys2Proof.Machine

/-- One step of the machine: one clock cycle (10_state.md R20, R40). -/
def step (s : State) : Host.Outcome State Fault Refusal := runCycle s

/-- The state in which the very next step runs the frame of `nbits` bits `w` and nothing else: the frame is presented on
the bus ports of one more cycle (assumption log 6). -/
def State.withFetchWord (s : State) (nbits w : Nat) : State := s.presentWord nbits w

end Sys2Proof.Machine
end

