-- ==== Sys2Proof/Machine/Script.lean ====
section
/-! DEFINITION. The host-script notation (30_encoding.md R100) and its pseudo-instructions (R101), as data, with the bus
transactions that they present. -/

namespace Sys2Proof.Machine

/-- The word of a command mnemonic (R91); an illegal word has no mnemonic. -/
def cmdWord : Cmd → Option Word
  | .nop => some 0x00000000
  | .init => some 0x00000001
  | .inc => some 0x00000002
  | .start => some 0x00000003
  | .block => some 0x00000004
  | .abort => some 0x00000005
  | .illegal => none

/-- A line of a host script (R100). -/
inductive ScriptLine where
  /-- `WR <REG>, <v>` -/
  | wr (r : Reg) (v : Word)
  /-- `RD <REG>` -/
  | rd (r : Reg)
  /-- `RD <REG> = <v>`: read and assert the value -/
  | rdExpect (r : Reg) (v : Word)
  /-- `CMD <MNEMONIC>` -/
  | cmd (m : Cmd)
  /-- `; text` -/
  | comment (text : String)
  /-- `<label>:` -/
  | label (name : String)
  deriving DecidableEq, Repr

/-- The transaction of a line, if it has one (R100). -/
def ScriptLine.txn : ScriptLine → Option BusTxn
  | .wr r v => some ⟨true, r.offset, v⟩
  | .rd r => some ⟨false, r.offset, 0⟩
  | .rdExpect r _ => some ⟨false, r.offset, 0⟩
  | .cmd m => (cmdWord m).map fun w => ⟨true, Reg.cmd.offset, w⟩
  | .comment _ => none
  | .label _ => none

/-- What a pseudo-instruction expands to (R101): lines, a polling loop, or the test that stops a script. -/
inductive ScriptItem where
  | line (l : ScriptLine)
  /-- `L: RD <REG>` repeated until `((value & mask) = v)` is `want`; it may never end -/
  | poll (r : Reg) (mask v : Word) (want : Bool)
  /-- read, and stop the script if `(value & mask) = v` -/
  | stopIf (r : Reg) (mask v : Word)
  deriving DecidableEq, Repr

/-- What the host does after an item, once its value has been read. -/
inductive ItemResult where
  | goOn | again | assertFailed | stop
  deriving DecidableEq, Repr

/-- The transaction of an item. -/
def ScriptItem.txn : ScriptItem → Option BusTxn
  | .line l => l.txn
  | .poll r _ _ _ => some ⟨false, r.offset, 0⟩
  | .stopIf r _ _ => some ⟨false, r.offset, 0⟩

/-- The host's decision on the value read (R100, R101). -/
def ScriptItem.after (value : Word) : ScriptItem → ItemResult
  | .line (.rdExpect _ v) => if value = v then .goOn else .assertFailed
  | .line _ => .goOn
  | .poll _ mask v want => if decide (value &&& mask = v) = want then .goOn else .again
  | .stopIf _ mask v => if value &&& mask = v then .stop else .goOn

/-- The pseudo-instructions of R101. -/
inductive Pseudo where
  | wait (r : Reg) (mask v : Word)
  | waitIdle
  | waitOut
  | waitNB
  /-- `WR64 MSG_LEN, v` -/
  | wr64 (v : BitVec 64)
  | ldNonce (ws : List Word)
  | ldDin (ws : List Word)
  | rdOut
  /-- `ENCRYPT` of a message of `len` bytes, with the words of its chunks -/
  | encrypt (len : BitVec 64) (chunks : List (List Word))
  deriving DecidableEq, Repr

/-- Lines that write a window's first `n` slots. R101 gives LDNONCE and LDDIN exactly `n` words; for a list of another length
a missing word is written as 0 and an extra one is dropped: DESIGN CHOICE, safe (assumption log 20). -/
def wrWindow (mk : Fin 8 → Reg) (n : Nat) (ws : List Word) : List ScriptItem :=
  (List.range n).map fun k => .line (.wr (mk (Fin.ofNat 8 k)) (ws.getD k 0))

/-- `LDDIN` (R101). -/
def expandLdDin (z : BlockSize) (ws : List Word) : List ScriptItem := wrWindow .din z.bw ws

/-- `WAITNB`: STATUS is read until its STATE is not BUSY (R101). -/
def expandWaitNB : List ScriptItem := [.poll .status 0x7 0x2 false]

/-- `RDOUT` (R101). -/
def expandRdOut (z : BlockSize) : List ScriptItem :=
  (List.range z.bw).map fun k => .line (.rd (.dout (Fin.ofNat 8 k)))

/-- `WR64 MSG_LEN, v` (R101). -/
def expandWr64 (v : BitVec 64) : List ScriptItem :=
  [.line (.wr .msgLenLo (v.extractLsb' 0 32)), .line (.wr .msgLenHi (v.extractLsb' 32 32))]

/-- One chunk of `ENCRYPT`: load, issue, wait, stop on an error, read (R101). -/
def encryptChunk (z : BlockSize) (ws : List Word) : List ScriptItem :=
  expandLdDin z ws ++ [.line (.cmd .block)] ++ expandWaitNB ++ [.stopIf .status 0x40 0x40] ++ expandRdOut z

/-- The expansions of R101, for a controller of size `z`. A chunk that ENCRYPT is not given is loaded as zeros, and an extra
one is dropped: DESIGN CHOICE, safe (assumption log 20). -/
def Pseudo.expand (z : BlockSize) : Pseudo → List ScriptItem
  | .wait r mask v => [.poll r mask v true]
  | .waitIdle => [.poll .status 0x7 0x0 true]
  | .waitOut => [.poll .status 0x10 0x10 true]
  | .waitNB => expandWaitNB
  | .wr64 v => expandWr64 v
  | .ldNonce ws => .line (.wr .nonceLen (BitVec.ofNat 32 z.nonceBytes)) :: wrWindow .nonce z.nw ws
  | .ldDin ws => expandLdDin z ws
  | .rdOut => expandRdOut z
  | .encrypt len chunks =>
    expandWr64 len ++ [.line (.cmd .start)]
      ++ ((List.range (ceilDiv len.toNat z.bytes)).map fun i => encryptChunk z (chunks.getD i [])).flatten

/-- The host performs the transactions of a list of items one after the other, each as one atomic step (R73); loops and
tests are left to the host. -/
def runItems : List ScriptItem → State → Host.Outcome State Fault Refusal
  | [], s => .next s
  | it :: its, s =>
    match it.txn with
    | none => runItems its s
    | some t => andThen (exec (decodeBus t) s) (runItems its)

end Sys2Proof.Machine
end

