-- ==== Sys2Proof/Machine/Events.lean ====
section
/-! DEFINITION. The atomic steps of the three agents (00_scope.md R13), one at a time and in any order: the interleaving
model that R40 allows beside the composition of one cycle. -/

namespace Sys2Proof.Machine

/-- An atomic step of an agent (R13). -/
inductive Event where
  /-- the environment: reset -/
  | reset
  /-- the core: the request handshake -/
  | coreAccept
  /-- the core: a response with block `m` and error bit `e` -/
  | coreRespond (m : Bytes) (e : Bool)
  /-- the host: one instruction -/
  | host (i : Instr)
  deriving DecidableEq, Repr

/-- When an atomic step can happen: an acceptance only while a request is pending (R148), a response only while one is
outstanding (R150, R153). -/
def Event.enabled (c : Controller) : Event → Bool
  | .reset => true
  | .coreAccept => c.reqPend
  | .coreRespond _ _ => c.outst
  | .host _ => true

/-- An atomic step. The level of core_key_err that START samples is that of the state's current ports. -/
def eventStep (e : Event) (s : State) : Host.Outcome State Fault Refusal :=
  match e with
  | .reset => .next (s.setSt (Controller.resetOf s.st.size))
  | .coreAccept => .next (s.setSt s.st.coreAccept)
  | .coreRespond m e => .next (s.setSt (s.st.coreRespond m e))
  | .host i => exec i s

/-- A sequence of atomic steps, each enabled where it is taken; `none` where one is not, or where one does not answer a
next state. -/
def runEvents : List Event → State → Option State
  | [], s => some s
  | e :: es, s =>
    if e.enabled s.st then
      match eventStep e s with
      | .next s' => runEvents es s'
      | .fault _ => none
      | .refused _ => none
    else none

end Sys2Proof.Machine
end

