-- ==== Sys2Proof/Safety.lean ====
section
/-! DEFINITION. The terms of the claims: the invariants of 10_state.md R41, the contract of a well-behaved core (42_message.md R154),
and what a message is, what it outputs and what it asks of the core (42_message.md R155, R158). -/

namespace Sys2Proof.Safety

open Sys2Proof.Machine

/-! ## Invariants of the controller -/

/-- Every buffer has its length: blocks have B bytes, the nonce B-4 (R31 to R34). -/
structure Sized (c : Controller) : Prop where
  ctrblk : c.ctrblk.length = c.size.bytes
  nonce : c.nonce.length = c.size.nonceBytes
  din : c.din.length = c.size.bytes
  dout : c.dout.length = c.size.bytes
  wbuf : c.wbuf.length = c.size.bytes
  reqblk : c.reqblk.length = c.size.bytes

/-- The invariants (a) to (h) of R41, with those that the rules R32 to R34, R152 and R260 add. -/
structure Inv (c : Controller) : Prop where
  sized : Sized c
  /-- R41 (a) -/
  one_request : ¬ (c.reqPend = true ∧ c.outst = true)
  /-- R41 (b) -/
  in_flight_iff : (c.state = .busy ∨ c.state = .drain) ↔ c.inFlight = true
  /-- R41 (c) -/
  ready : c.state = .ready → c.remain ≠ 0 ∧ c.ctrv = true
  /-- R41 (d) -/
  busy : c.state = .busy →
    c.ctrv = true ∧ c.wlen = min c.size.bytes c.remain.toNat ∧ 0 < c.wlen ∧ c.err = false
  /-- R41 (e) -/
  error : c.state = .error → c.err = true
  /-- R41 (f) -/
  err_iff : c.err = false ↔ c.errcode = .none
  /-- R41 (g) -/
  no_counter : c.ctrv = false → c.ctrblk = zeroBytes c.size.bytes
  /-- R41 (h) -/
  no_output : c.doutv = false → c.dout = zeroBytes c.size.bytes
  /-- An error is recorded only in ERROR and DRAIN (R209, R171). -/
  err_where : c.err = true → c.deaf = true
  /-- The working buffer and its count are clear outside BUSY (R32, R33). -/
  no_work : c.state ≠ .busy → c.wbuf = zeroBytes c.size.bytes ∧ c.wlen = 0
  /-- The request latch is clear when no request is in flight (R34). -/
  no_request : c.inFlight = false → c.reqblk = zeroBytes c.size.bytes
  /-- The request of the block in flight carries its counter block (R34, R145). -/
  request : c.state = .busy → c.reqblk = c.ctrblk
  /-- In ERROR and DRAIN the working state is cleared (R152, R209, R171). -/
  cleared : c.deaf = true → c.ctrv = false ∧ c.doutv = false ∧ c.done = false ∧ c.remain = 0
  /-- While BUSY there is no output, and no message is complete (R260, R27). -/
  hidden : c.state = .busy → c.doutv = false
  /-- DONE stands only in IDLE, where nothing remains (R27, R140, R150). -/
  done_idle : c.done = true → c.state = .idle
  /-- Nothing remains in IDLE (R140, R150, R171, R250). -/
  idle_remain : c.state = .idle → c.remain = 0

/-- The prefix of a counter block: its bytes 0..B-5 (R41 (i), R118). -/
def counterPrefix (c : Controller) : Bytes := c.ctrblk.take c.size.nonceBytes

/-- The state that error entry leaves, field by field, when no error was recorded (R209). -/
def errorState (code : ErrCode) (c : Controller) : Controller :=
  { c with
    err := true, errcode := code
    dout := zeroBytes c.size.bytes, doutv := false, done := false
    remain := 0
    ctrblk := zeroBytes c.size.bytes, ctrv := false
    wbuf := zeroBytes c.size.bytes, wlen := 0
    state := if c.reqPend = true ∨ c.outst = true then .drain else .error }

/-- In this cycle the host writes `d` to offset `a`. -/
def writes (p : Ports) (a : BitVec 8) (d : Word) : Prop :=
  p.busSel = true ∧ p.busWe = true ∧ p.busAddr = a ∧ p.busWdata = d

/-- In this cycle a response is taken: one is presented, and a request was outstanding when the cycle began (R40). -/
def responseTaken (s : State) : Prop := s.ports.coreRspValid = true ∧ s.st.outst = true

/-! ## The core's contract -/

/-- In this cycle the core keeps its contract with cipher function `E` and key-error level `keyErr`: a response carries
`E` of the request's block and the error bit `keyErr`, and core_key_err is `keyErr` (R154). -/
def CoreKeepsContract (E : Bytes → Bytes) (keyErr : Bool) (s : State) : Prop :=
  s.ports.coreKeyErr = keyErr ∧
  (s.ports.coreRspValid = true → s.st.outst = true →
    unpackBlock s.st.size.bytes s.ports.coreRspBlock = E s.st.reqblk ∧ s.ports.coreRspErr = keyErr)

/-! ## Messages -/

/-- The command an instruction issues, if it is one: a command word, or a write of one to CMD. -/
def command : Instr → Option Cmd
  | .nop => some .nop
  | .init => some .init
  | .inc => some .inc
  | .start => some .start
  | .block => some .block
  | .abort => some .abort
  | .illegal _ => some .illegal
  | .wrCmd d => some (decodeCmd d)
  | .wrInten _ | .wrNonceLen _ | .wrMsgLenLo _ | .wrMsgLenHi _ | .wrCtr _ => none
  | .wrNonce _ _ | .wrDin _ _ | .wrOther _ _ | .rd _ => none

/-- The counter block of block `i` of a message: the nonce and the counter integer `(1 + i) mod 2^32` (R39, R155). -/
def counterBlock (B : Nat) (nonce : Bytes) (i : Nat) : Bytes := setCtr B nonce (BitVec.ofNat 32 (1 + i))

/-- The source's `encrypt(P, key, n)` with `E` the cipher under the key: byte `p` of the plaintext is XORed with byte
`p mod B` of the mask of block `p / B` (R155). -/
def ctrEncrypt (B : Nat) (E : Bytes → Bytes) (nonce P : Bytes) : Bytes :=
  mkBytes P.length fun p => byteAt P p ^^^ byteAt (E (counterBlock B nonce (p / B))) (p % B)

/-- What an agent may do while a message runs (R155): the core answers, the host reads, writes staging registers and
issues BLOCK and NOP. -/
def mayDuring : Event → Bool
  | .reset => false
  | .coreAccept => true
  | .coreRespond _ _ => true
  | .host (.wrCtr _) => false
  | .host i =>
    match command i with
    | none => true
    | some .nop => true
    | some .block => true
    | some _ => false

/-- An event of a message with plaintext `P` and a well-behaved core with `keyErr = 0` (R155): the core answers with `E` of
the request, and before a BLOCK the first bytes of DIN hold the next plaintext bytes. -/
def followsMessage (E : Bytes → Bytes) (P : Bytes) (c : Controller) (e : Event) : Prop :=
  mayDuring e = true ∧
  (∀ m x, e = .coreRespond m x → m = E c.reqblk ∧ x = false) ∧
  (∀ i, e = .host i → command i = some .block → ∀ j, j < min c.size.bytes c.remain.toNat →
    byteAt c.din j = byteAt P (P.length - c.remain.toNat + j))

/-- A run of a message in which no error intervenes (R155). -/
def messageRun (E : Bytes → Bytes) (P : Bytes) : List Event → State → Prop
  | [], _ => True
  | e :: es, s =>
    e.enabled s.st = true ∧ followsMessage E P s.st e ∧
      ∃ s', eventStep e s = .next s' ∧ s'.st.err = false ∧ messageRun E P es s'

/-- The number of responses in a run. -/
def responses (es : List Event) : Nat :=
  es.countP fun e => match e with | .coreRespond _ _ => true | _ => false

/-- What a run outputs: after each response the first bytes of DOUT, as many as the chunk has. -/
def outputs : List Event → State → Bytes
  | [], _ => []
  | e :: es, s =>
    match eventStep e s with
    | .next s' =>
      (match e with
        | .coreRespond _ _ => s'.st.dout.take s.st.wlen
        | _ => []) ++ outputs es s'
    | _ => []

/-- What a run asks of the core: the block of each accepted request, in order. -/
def requests : List Event → State → List Bytes
  | [], _ => []
  | e :: es, s =>
    match eventStep e s with
    | .next s' =>
      (match e with
        | .coreAccept => [s.st.reqblk]
        | _ => []) ++ requests es s'
    | _ => []

/-- The number of BLOCK commands of a run that are issued in READY and so present a request (R145). -/
def blocksIssued : List Event → State → Nat
  | [], _ => 0
  | e :: es, s =>
    match eventStep e s with
    | .next s' =>
      (match e with
        | .host i => if command i = some .block ∧ s.st.state = .ready then 1 else 0
        | _ => 0) + blocksIssued es s'
    | _ => 0

end Sys2Proof.Safety
end

