-- ==== Sys2Proof/Certificates/Slice0/Obligations.lean ====
section
/-! DEFINITION. The statements for the provers, each from the numbered rules of the spec. `s.st` is the controller;
`Inv` holds at reset and under every step (ResetHasInvariants, StepKeepsInvariants), and stands as a premise where a
statement could fail only in a state that no run reaches. -/

open Sys2Proof Sys2Proof.Machine Sys2Proof.Safety

/-! ## Encoding -/

/-- Decoding the encoded form of a well-formed instruction gives it back, with every operand at every value. -/
def Obligations.DecodeOfEncodeIsIdentity : Prop :=
  ∀ i : Instr, i.wellFormed = true → decodeTableWord (encode i).nbits (encode i).bits = some i

/-- Every frame decodes to a well-formed instruction, and encoding that gives the frame back, but for the data of a
read, which no rule looks at (R90, R93: the decoder is total). -/
def Obligations.EncodeOfDecodeIsFrame : Prop :=
  ∀ f : Frame, (decode f).wellFormed = true ∧
    encode (decode f) = match f with
      | .cmd w => .cmd w
      | .bus t => if t.we then .bus t else .bus ⟨false, t.addr, 0⟩

/-- R92: which words are illegal, and what a write of one to CMD does. -/
def Obligations.IllegalWordsRaiseOrAreIgnored : Prop :=
  ∀ (w : Word) (s : State), Inv s.st →
    (decodeCmd w = .illegal ↔ 6 ≤ w.toNat % 16 ∨ w.toNat / 16 ≠ 0) ∧
    (decodeCmd w = .illegal →
      (s.st.state = .idle ∨ s.st.state = .ready ∨ s.st.state = .busy →
        exec (.wrCmd w) s = .next (s.setSt (errorState .illegalCmd s.st)) ∧
        exec (.illegal w) s = .next (s.setSt (errorState .illegalCmd s.st))) ∧
      (s.st.state = .error ∨ s.st.state = .drain →
        exec (.wrCmd w) s = .next s ∧ exec (.illegal w) s = .next s))

/-- The words of R91 and some transactions of R175, written out bit by bit, decode to what they stand for. -/
def Obligations.WordsDecodeAsTheTablesSay : Prop :=
  decode (.cmd 0b00000000000000000000000000000000) = .nop ∧
  decode (.cmd 0b00000000000000000000000000000001) = .init ∧
  decode (.cmd 0b00000000000000000000000000000010) = .inc ∧
  decode (.cmd 0b00000000000000000000000000000011) = .start ∧
  decode (.cmd 0b00000000000000000000000000000100) = .block ∧
  decode (.cmd 0b00000000000000000000000000000101) = .abort ∧
  decode (.cmd 0b00000000000000000000000000000110) = .illegal 6 ∧
  decode (.cmd 0b00000000000000000000000000010101) = .illegal 0x15 ∧
  decode (.bus ⟨true, 0b00001000, 5⟩) = .wrCmd 5 ∧
  decode (.bus ⟨true, 0b00101000, 7⟩) = .wrCtr 7 ∧
  decode (.bus ⟨true, 0b01000100, 9⟩) = .wrNonce 1 9 ∧
  decode (.bus ⟨true, 0b10011100, 9⟩) = .wrDin 7 9 ∧
  decode (.bus ⟨true, 0b10000001, 9⟩) = .wrOther 0x81 9 ∧
  decode (.bus ⟨false, 0b00001100, 0⟩) = .rd 0x0C

/-! ## The step -/

/-- A step runs the decoded instruction: when the next cycle presents a frame that decodes to `i`, the step is exec of `i`
(on a bus_rdata of 0, the value of a cycle with no read) and then the clock edge. -/
def Obligations.StepRunsThePresentedInstruction : Prop :=
  ∀ (s : State) (nbits w : Nat) (i : Instr), decodeTableWord nbits w = some i →
    ∃ t, exec i ((s.withFetchWord nbits w).setRdata 0) = .next t ∧
      step (s.withFetchWord nbits w) = .next t.endCycle ∧ t.endCycle.inputs = s.inputs

/-- Every step answers a next state, and so does every instruction: nothing stops this machine (R206, D6). -/
def Obligations.EveryStepAnswersNext : Prop :=
  (∀ s : State, ∃ s', step s = .next s' ∧ s'.inputs = s.inputs.tail ∧ s'.cycle = s.cycle + 1) ∧
  (∀ (i : Instr) (s : State), ∃ t, exec i s = .next t ∧ t.inputs = s.inputs ∧ t.cycle = s.cycle ∧
    (t.busRdata = s.busRdata ∨ ∃ a, i = .rd a))

/-- The invariants (a) to (h) of R41, and those that go with them, are kept by every step, and no step changes the block
size. -/
def Obligations.StepKeepsInvariants : Prop :=
  ∀ s s' : State, Inv s.st → step s = .next s' → Inv s'.st ∧ s'.st.size = s.st.size

/-- The state after reset has the invariants, in every configuration. -/
def Obligations.ResetHasInvariants : Prop :=
  Inv State.reset.st ∧ ∀ z : BlockSize, Inv (Controller.resetOf z)

/-- R40: a cycle is a sequence of atomic steps, in this order: the read sees the start of the cycle; reset replaces
everything else; otherwise acceptance, a response if a request was outstanding at the start, and the host's write. -/
def Obligations.CycleIsSequenceOfAtomicSteps : Prop :=
  ∀ s : State,
    let p := s.ports
    let read : List Event := if p.busSel = true ∧ p.busWe = false then [.host (.rd p.busAddr)] else []
    let accept : List Event := if s.st.coreReqValid = true ∧ p.coreReqReady = true then [.coreAccept] else []
    let respond : List Event :=
      if p.coreRspValid = true ∧ s.st.outst = true then
        [.coreRespond (unpackBlock s.st.size.bytes p.coreRspBlock) p.coreRspErr] else []
    let write : List Event :=
      if p.busSel = true ∧ p.busWe = true then [.host (decodeBus ⟨true, p.busAddr, p.busWdata⟩)] else []
    ∃ t, runEvents (read ++ if p.rst = true then [.reset] else accept ++ respond ++ write) (s.setRdata 0) = some t ∧
      step s = .next t.endCycle

/-! ## Reset -/

/-- R250: every field after a cycle with rst = 1, what such a cycle's read returns, and what the outputs are then. -/
def Obligations.ResetCycleSetsEveryField : Prop :=
  ∀ s : State, s.ports.rst = true → ∃ s', step s = .next s' ∧
    s'.st = { size := s.st.size, state := .idle, ctrblk := zeroBytes s.st.size.bytes, ctrv := false,
              nonce := zeroBytes (s.st.size.bytes - 4), nonceLen := 0, msgLen := 0, remain := 0,
              din := zeroBytes s.st.size.bytes, dout := zeroBytes s.st.size.bytes, doutv := false, done := false,
              err := false, errcode := .none, inten := 0, wbuf := zeroBytes s.st.size.bytes, wlen := 0,
              reqblk := zeroBytes s.st.size.bytes, reqPend := false, outst := false } ∧
    (s.ports.busSel = true → s.ports.busWe = false → s'.busRdata = busRead s.st s.ports.busAddr) ∧
    busRead s'.st 0x0C = 0 ∧ busRead s'.st 0x28 = 0 ∧ s'.st.coreReqValid = false ∧ s'.st.irq = false

/-- After reset ID and PARAM read their constants and every other address reads 0, in every configuration. -/
def Obligations.RegistersReadAfterReset : Prop :=
  ∀ (z : BlockSize) (a : BitVec 8), busRead (Controller.resetOf z) a =
    if a = 0x00 then 0x43545231 else if a = 0x04 then BitVec.ofNat 32 ((z.bytes - 4) * 256 + z.bytes) else 0

/-! ## The counter -/

/-- R110: INIT in IDLE seeds the counter, or raises INVALID_NONCE_LENGTH; in READY and BUSY it raises SEQUENCE. Nothing
else changes. -/
def Obligations.InitSeedsCounterOrRaises : Prop :=
  decode (.cmd 0x00000001) = .init ∧
  ∀ s : State, Inv s.st →
    (s.st.state = .idle → s.st.nonceLen.toNat = s.st.size.bytes - 4 →
      exec .init s = .next (s.setSt { s.st with ctrblk := initCounter s.st.size.bytes s.st.nonce, ctrv := true })) ∧
    (s.st.state = .idle → s.st.nonceLen.toNat ≠ s.st.size.bytes - 4 →
      exec .init s = .next (s.setSt (errorState .invalidNonceLength s.st))) ∧
    (s.st.state = .ready ∨ s.st.state = .busy →
      exec .init s = .next (s.setSt (errorState .sequence s.st)))

/-- R111: the initial counter block is the nonce and then 00 00 00 01. -/
def Obligations.InitCounterIsNonceThenOne : Prop :=
  ∀ (z : BlockSize) (nonce : Bytes), nonce.length = z.bytes - 4 →
    initCounter z.bytes nonce = nonce ++ [0x00, 0x00, 0x00, 0x01] ∧
    ctrOf z.bytes (initCounter z.bytes nonce) = 1 ∧ (initCounter z.bytes nonce).take (z.bytes - 4) = nonce

/-- R113: INC in IDLE with CTRV = 1 increments the counter; elsewhere outside ERROR and DRAIN it raises SEQUENCE. -/
def Obligations.IncIncrementsOrRaises : Prop :=
  decode (.cmd 0x00000002) = .inc ∧
  ∀ s : State, Inv s.st →
    (s.st.state = .idle → s.st.ctrv = true →
      exec .inc s = .next (s.setSt { s.st with ctrblk := incCounter s.st.size.bytes s.st.ctrblk })) ∧
    (s.st.state = .idle ∧ s.st.ctrv = false ∨ s.st.state = .ready ∨ s.st.state = .busy →
      exec .inc s = .next (s.setSt (errorState .sequence s.st)))

/-- R114: the increment adds 1 modulo 2^32 to the trailing integer and leaves the other bytes. -/
def Obligations.IncCounterAddsOneModulo : Prop :=
  ∀ (z : BlockSize) (blk : Bytes), blk.length = z.bytes →
    (ctrOf z.bytes (incCounter z.bytes blk)).toNat = ((ctrOf z.bytes blk).toNat + 1) % 2 ^ 32 ∧
    (incCounter z.bytes blk).take (z.bytes - 4) = blk.take (z.bytes - 4) ∧
    (incCounter z.bytes blk).length = z.bytes

/-- R115: N increments add N modulo 2^32 and leave the prefix; from the initial counter they give 1 + N. -/
def Obligations.IteratedIncrementAddsCount : Prop :=
  ∀ (z : BlockSize) (blk nonce : Bytes) (N : Nat), blk.length = z.bytes → nonce.length = z.bytes - 4 →
    (ctrOf z.bytes ((incCounter z.bytes)^[N] blk)).toNat = ((ctrOf z.bytes blk).toNat + N) % 2 ^ 32 ∧
    ((incCounter z.bytes)^[N] blk).take (z.bytes - 4) = blk.take (z.bytes - 4) ∧
    (ctrOf z.bytes ((incCounter z.bytes)^[N] (initCounter z.bytes nonce))).toNat = (1 + N) % 2 ^ 32

/-- R116: the CTR write loads the counter integer in IDLE with CTRV = 1, raises SEQUENCE in IDLE with CTRV = 0 and in READY
and BUSY, and has no effect in ERROR and DRAIN. -/
def Obligations.CtrWriteLoadsOrRaises : Prop :=
  ∀ (s : State) (d : Word), Inv s.st →
    decode (.bus ⟨true, 0x28, d⟩) = .wrCtr d ∧
    (s.st.state = .idle → s.st.ctrv = true →
      exec (.wrCtr d) s = .next (s.setSt { s.st with ctrblk := setCtr s.st.size.bytes s.st.ctrblk d })) ∧
    (s.st.state = .idle ∧ s.st.ctrv = false ∨ s.st.state = .ready ∨ s.st.state = .busy →
      exec (.wrCtr d) s = .next (s.setSt (errorState .sequence s.st))) ∧
    (s.st.state = .error ∨ s.st.state = .drain → exec (.wrCtr d) s = .next s) ∧
    ctrOf s.st.size.bytes (setCtr s.st.size.bytes s.st.ctrblk d) = d ∧
    (setCtr s.st.size.bytes s.st.ctrblk d).take (s.st.size.bytes - 4) = counterPrefix s.st

/-- R117: CTR reads the counter integer and CTRBLKk word k of the counter block, in every state; the last word is CTR
(R64); after reset, error entry and ABORT they read 0; reads have no side effect. -/
def Obligations.CounterRegistersRead : Prop :=
  ∀ (c : Controller) (k : Fin 8),
    busRead c 0x28 = ctrOf c.size.bytes c.ctrblk ∧
    busRead c (0x60 + 4 * BitVec.ofNat 8 k.val) = (if k.val < c.size.bytes / 4 then wordAt c.ctrblk k.val else 0) ∧
    (k.val + 1 = c.size.bytes / 4 → busRead c (0x60 + 4 * BitVec.ofNat 8 k.val) = busRead c 0x28) ∧
    (∀ d, (d = Controller.resetOf c.size ∨ (∃ code, c.err = false ∧ d = c.raiseError code) ∨ d = c.abortWork) →
      busRead d 0x28 = 0 ∧ busRead d (0x60 + 4 * BitVec.ofNat 8 k.val) = 0) ∧
    (∀ (s : State) (a : BitVec 8), ∃ t, exec (.rd a) s = .next t ∧ t.st = s.st)

/-- R118: when a step changes the prefix of the counter block, it is a reset, an error entry, ABORT, or an INIT or START
that passes its checks, which puts the nonce there; the others clear it. -/
def Obligations.OnlyFiveStepsWriteThePrefix : Prop :=
  ∀ s s' : State, Inv s.st → step s = .next s' → counterPrefix s'.st ≠ counterPrefix s.st →
    (counterPrefix s'.st = zeroBytes (s.st.size.bytes - 4) ∧
      (s.ports.rst = true ∨ (s.st.err = false ∧ s'.st.err = true) ∨ writes s.ports 0x08 0x00000005)) ∨
    (counterPrefix s'.st = s.st.nonce ∧ s'.st.ctrv = true ∧ s.ports.rst = false ∧
      (writes s.ports 0x08 0x00000001 ∨ writes s.ports 0x08 0x00000003))

/-! ## The mixer and the chunks -/

/-- R130: the mixer, byte by byte. -/
def Obligations.MixerXorsBelowLengthAndClearsRest : Prop :=
  ∀ (B : Nat) (w m : Bytes) (n : Nat), n ≤ B → (mix B w m n).length = B ∧
    (∀ j, j < n → byteAt (mix B w m n) j = byteAt w j ^^^ byteAt m j) ∧
    (∀ j, n ≤ j → j < B → byteAt (mix B w m n) j = 0x00)

/-- R133: mixing twice with one mask and length gives the first n bytes back. -/
def Obligations.MixerIsInvolution : Prop :=
  ∀ (B : Nat) (w m : Bytes) (n : Nat), w.length = B → n ≤ B →
    (mix B (mix B w m n) m n).take n = w.take n

/-- R131: the first n bytes are those of the software method: pad the chunk with zeros, XOR the whole block with the mask,
truncate; whatever the working buffer holds at and beyond n. -/
def Obligations.MixerAgreesWithPaddedXor : Prop :=
  ∀ (B : Nat) (p w m : Bytes), p.length ≤ B → w.length = B → m.length = B → w.take p.length = p →
    (mix B w m p.length).take p.length
      = (List.zipWith (· ^^^ ·) (p ++ zeroBytes (B - p.length)) m).take p.length

/-- R135: only the first n bytes of mask and chunk matter; for n = 1 the output word 0 is the first byte, shifted to the
top, and every other byte is 0. -/
def Obligations.MixerReadsOnlyTheChunk : Prop :=
  ∀ (B : Nat) (w w' m m' : Bytes) (n : Nat), 4 ≤ B →
    ((∀ j, j < n → byteAt w j = byteAt w' j) → (∀ j, j < n → byteAt m j = byteAt m' j) →
      mix B w m n = mix B w' m' n) ∧
    wordAt (mix B w m 1) 0 = (byteAt w 0 ^^^ byteAt m 0).setWidth 32 <<< 24 ∧
    (∀ j, 1 ≤ j → byteAt (mix B w m 1) j = 0)

/-! ## Messages: START and BLOCK -/

/-- R140: START in IDLE checks the nonce length, the message length and the key, in this order, and begins a message; in
READY and BUSY it raises SEQUENCE. -/
def Obligations.StartBeginsMessageOrRaises : Prop :=
  decode (.cmd 0x00000003) = .start ∧
  ∀ s : State, Inv s.st →
    (s.st.state = .idle →
      (s.st.nonceLen.toNat ≠ s.st.size.bytes - 4 →
        exec .start s = .next (s.setSt (errorState .invalidNonceLength s.st))) ∧
      (s.st.nonceLen.toNat = s.st.size.bytes - 4 → s.st.msgLen.toNat > 2 ^ 32 * s.st.size.bytes →
        exec .start s = .next (s.setSt (errorState .plaintextTooLarge s.st))) ∧
      (s.st.nonceLen.toNat = s.st.size.bytes - 4 → s.st.msgLen.toNat ≤ 2 ^ 32 * s.st.size.bytes →
        s.ports.coreKeyErr = true → exec .start s = .next (s.setSt (errorState .keySetup s.st))) ∧
      (s.st.nonceLen.toNat = s.st.size.bytes - 4 → s.st.msgLen.toNat ≤ 2 ^ 32 * s.st.size.bytes →
        s.ports.coreKeyErr = false →
        exec .start s = .next (s.setSt { s.st with
          ctrblk := initCounter s.st.size.bytes s.st.nonce, ctrv := true
          remain := s.st.msgLen
          dout := zeroBytes s.st.size.bytes, doutv := false, done := decide (s.st.msgLen = 0)
          state := if s.st.msgLen = 0 then .idle else .ready }))) ∧
    (s.st.state = .ready ∨ s.st.state = .busy →
      exec .start s = .next (s.setSt (errorState .sequence s.st)))

/-- R141: more than 2^32 blocks is exactly more than 2^32*B bytes, and START in IDLE rejects exactly such a message with
PLAINTEXT_TOO_LARGE, where the nonce length is right. -/
def Obligations.BlockCountLimit : Prop :=
  (∀ (z : BlockSize) (L : Nat), ceilDiv L z.bytes > 2 ^ 32 ↔ L > 2 ^ 32 * z.bytes) ∧
  (∀ s : State, Inv s.st → s.st.state = .idle → s.st.nonceLen.toNat = s.st.size.bytes - 4 →
    ∃ t, exec .start s = .next t ∧
      (t.st.errcode = .plaintextTooLarge ↔ ceilDiv s.st.msgLen.toNat s.st.size.bytes > 2 ^ 32))

/-- R142: an empty message is complete at once: the counter is seeded, nothing is asked of the core, and a BLOCK after it
raises SEQUENCE. -/
def Obligations.EmptyMessageCompletesAtOnce : Prop :=
  ∀ s : State, Inv s.st → s.st.state = .idle → s.st.nonceLen.toNat = s.st.size.bytes - 4 →
    s.ports.coreKeyErr = false → s.st.msgLen = 0 →
    ∃ t, exec .start s = .next t ∧ busRead t.st 0x28 = 1 ∧ t.st.coreReqValid = false ∧ t.st.state = .idle ∧
      t.st.done = true ∧ t.st.doutv = false ∧ t.st.remain = 0 ∧
      exec .block t = .next (t.setSt (errorState .sequence t.st))

/-- R145: BLOCK in READY copies the chunk and the counter block and presents the request; in IDLE and BUSY it raises
SEQUENCE. -/
def Obligations.BlockIssuesRequestOrRaises : Prop :=
  decode (.cmd 0x00000004) = .block ∧
  ∀ s : State, Inv s.st →
    (s.st.state = .ready →
      exec .block s = .next (s.setSt { s.st with
        wbuf := s.st.din, wlen := min s.st.size.bytes s.st.remain.toNat, reqblk := s.st.ctrblk, reqPend := true
        dout := zeroBytes s.st.size.bytes, doutv := false, state := .busy })) ∧
    (s.st.state = .idle ∨ s.st.state = .busy →
      exec .block s = .next (s.setSt (errorState .sequence s.st)))

/-! ## The core interface -/

/-- R146: core_req_valid is req_pend and core_req_block is reqblk, packed; a presented request stays, with its block, until
it is accepted, whatever the host does; reqblk changes only at a response; and at most one request is in flight. -/
def Obligations.PresentedRequestIsStable : Prop :=
  ∀ s s' : State, Inv s.st → s.ports.rst = false → step s = .next s' →
    s.st.coreReqValid = s.st.reqPend ∧ s.st.coreReqBlock = packBlock s.st.reqblk ∧
    (s.st.reqPend = true → s'.st.reqblk = s.st.reqblk) ∧
    (s.st.reqPend = true → s.ports.coreReqReady = false → s'.st.reqPend = true) ∧
    (s.st.reqPend = true → s.ports.coreReqReady = true → s'.st.reqPend = false ∧ s'.st.outst = true) ∧
    (s.st.outst = true → s.ports.coreRspValid = false → s'.st.reqblk = s.st.reqblk ∧ s'.st.outst = true) ∧
    ¬ (s'.st.reqPend = true ∧ s'.st.outst = true)

/-- R148: in a cycle with the handshake and nothing else, the request is accepted and nothing else changes. -/
def Obligations.HandshakeAcceptsRequest : Prop :=
  ∀ s : State, s.ports.rst = false → s.ports.busSel = false → s.ports.coreRspValid = false →
    s.st.reqPend = true → s.ports.coreReqReady = true →
    ∃ s', step s = .next s' ∧ s'.st = { s.st with reqPend := false, outst := true }

/-- R150 and R151: in a cycle with a response in BUSY and no bus access, the block completes, with the mask the response
carries, or KEY_SETUP is raised and the controller is in ERROR. -/
def Obligations.ResponseCompletesBlockOrRaises : Prop :=
  ∀ s : State, Inv s.st → s.ports.rst = false → s.ports.busSel = false → s.st.state = .busy → responseTaken s →
    ∃ s', step s = .next s' ∧
    (s.ports.coreRspErr = false →
      s'.st = { s.st with
        outst := false
        dout := mix s.st.size.bytes s.st.wbuf (unpackBlock s.st.size.bytes s.ports.coreRspBlock) s.st.wlen
        doutv := true
        ctrblk := incCounter s.st.size.bytes s.st.ctrblk
        remain := BitVec.ofNat 64 (s.st.remain.toNat - s.st.wlen)
        wbuf := zeroBytes s.st.size.bytes, wlen := 0, reqblk := zeroBytes s.st.size.bytes
        state := if s.st.remain.toNat = s.st.wlen then .idle else .ready
        done := decide (s.st.remain.toNat = s.st.wlen) }) ∧
    (s.ports.coreRspErr = true →
      s'.st = errorState .keySetup { s.st with outst := false, reqblk := zeroBytes s.st.size.bytes } ∧
      s'.st.state = .error ∧ s'.st.dout = zeroBytes s.st.size.bytes)

/-- R152: a response in DRAIN is discarded, with its error bit, and the drain ends in ERROR or IDLE. -/
def Obligations.ResponseInDrainIsDiscarded : Prop :=
  ∀ s : State, Inv s.st → s.ports.rst = false → s.ports.busSel = false → s.st.state = .drain → responseTaken s →
    ∃ s', step s = .next s' ∧
      s'.st = { s.st with outst := false, reqblk := zeroBytes s.st.size.bytes
                          state := if s.st.err = true then .error else .idle }

/-- R153: a response in a cycle that begins with no request outstanding changes nothing: the cycle is the same without it. -/
def Obligations.StrayResponseIsIgnored : Prop :=
  ∀ (s : State) (p : Ports) (ps : List Ports), s.inputs = p :: ps → s.st.outst = false →
    step s = step { s with inputs := { p with coreRspValid := false } :: ps }

/-! ## Control commands -/

/-- R170: NOP changes nothing, in every state. -/
def Obligations.NopChangesNothing : Prop :=
  decode (.cmd 0x00000000) = .nop ∧
  ∀ s : State, exec .nop s = .next s ∧ exec (.wrCmd 0x00000000) s = .next s

/-- R171: ABORT, in every state: the error and the working state are cleared, the request and the staging registers are
kept, and the controller is in DRAIN if a request is in flight, else in IDLE; a drain after ABORT ends in IDLE. -/
def Obligations.AbortClearsErrorAndWork : Prop :=
  (∀ w : Word, decode (.cmd w) = .abort ↔ w = 0x00000005) ∧
  (∀ (s : State) (m : Bytes) (e : Bool), s.st.state = .drain → s.st.err = false → (s.st.coreRespond m e).state = .idle) ∧
  ∀ s : State, exec .abort s = .next (s.setSt { s.st with
    err := false, errcode := .none
    dout := zeroBytes s.st.size.bytes, doutv := false, done := false
    remain := 0
    ctrblk := zeroBytes s.st.size.bytes, ctrv := false
    wbuf := zeroBytes s.st.size.bytes, wlen := 0
    state := if s.st.reqPend = true ∨ s.st.outst = true then .drain else .idle })

/-- R173: in ERROR and DRAIN only the word 0x00000005 acts, as ABORT; every other word and a CTR write have no effect. -/
def Obligations.OnlyAbortActsInErrorAndDrain : Prop :=
  ∀ (s : State) (w : Word), s.st.state = .error ∨ s.st.state = .drain →
    exec (.wrCmd 0x00000005) s = exec .abort s ∧
    (w ≠ 0x00000005 → exec (.wrCmd w) s = .next s ∧ (decode (.cmd w) ≠ .abort ∧ exec (decode (.cmd w)) s = .next s)) ∧
    exec (.wrCtr w) s = .next s

/-- A write of a word to CMD is the command the word decodes to (R93, R210): it answers the same next state. -/
def Obligations.CmdWriteRunsTheDecodedCommand : Prop :=
  ∀ (w : Word) (s : State), ∃ t, exec (.wrCmd w) s = .next t ∧ exec (decode (.cmd w)) s = .next t

/-- R205, with the legality table of R210: where a command or a CTR write is not allowed, outside ERROR and DRAIN, it raises
SEQUENCE; where NOP and ABORT stand, they never do. -/
def Obligations.LegalityTableRaisesSequence : Prop :=
  ∀ (s : State) (d : Word), Inv s.st → s.st.state = .idle ∨ s.st.state = .ready ∨ s.st.state = .busy →
    (∀ i : Instr,
      (i = .init ∧ s.st.state ≠ .idle) ∨ (i = .start ∧ s.st.state ≠ .idle) ∨
      (i = .inc ∧ ¬ (s.st.state = .idle ∧ s.st.ctrv = true)) ∨
      (i = .wrCtr d ∧ ¬ (s.st.state = .idle ∧ s.st.ctrv = true)) ∨ (i = .block ∧ s.st.state ≠ .ready) →
      exec i s = .next (s.setSt (errorState .sequence s.st))) ∧
    (∀ (i : Instr) (t : State), i = .nop ∨ i = .abort → exec i s = .next t → t.st.err = false)

/-! ## Bus accesses -/

/-- R175: the complete write dispatch, by address. -/
def Obligations.BusWriteDispatch : Prop :=
  ∀ (s : State) (a : BitVec 8) (d : Word),
    let n := a.toNat
    exec (decodeBus ⟨true, a, d⟩) s =
      if n % 4 ≠ 0 then .next s
      else if n = 0x08 then exec (.wrCmd d) s
      else if n = 0x10 then .next (s.setSt { s.st with inten := BitVec.ofNat 3 d.toNat })
      else if n = 0x14 then .next (s.setSt { s.st with nonceLen := BitVec.ofNat 6 d.toNat })
      else if n = 0x18 then
        .next (s.setSt { s.st with msgLen := BitVec.ofNat 64 (s.st.msgLen.toNat / 2 ^ 32 * 2 ^ 32 + d.toNat) })
      else if n = 0x1C then
        .next (s.setSt { s.st with msgLen := BitVec.ofNat 64 (d.toNat * 2 ^ 32 + s.st.msgLen.toNat % 2 ^ 32) })
      else if n = 0x28 then exec (.wrCtr d) s
      else if 0x40 ≤ n ∧ n < 0x40 + 4 * s.st.size.nw then
        .next (s.setSt { s.st with nonce := setWord (s.st.size.bytes - 4) s.st.nonce ((n - 0x40) / 4) d })
      else if 0x80 ≤ n ∧ n < 0x80 + s.st.size.bytes then
        .next (s.setSt { s.st with din := setWord s.st.size.bytes s.st.din ((n - 0x80) / 4) d })
      else .next s

/-- R176: the complete read dispatch, by address; a read changes nothing but bus_rdata; and while DOUTV = 0 every DOUT word
reads 0. -/
def Obligations.BusReadDispatch : Prop :=
  ∀ (s : State) (a : BitVec 8),
    let n := a.toNat
    let c := s.st
    let bw := c.size.bytes / 4
    exec (.rd a) s = .next (s.setRdata (
      if n % 4 ≠ 0 then 0
      else if n = 0x00 then 0x43545231
      else if n = 0x04 then BitVec.ofNat 32 ((c.size.bytes - 4) * 256 + c.size.bytes)
      else if n = 0x0C then
        BitVec.ofNat 32 (c.state.code.toNat + 8 * c.ctrv.toNat + 16 * c.doutv.toNat + 32 * c.done.toNat
          + 64 * c.err.toNat + 256 * c.errcode.code.toNat)
      else if n = 0x10 then BitVec.ofNat 32 c.inten.toNat
      else if n = 0x14 then BitVec.ofNat 32 c.nonceLen.toNat
      else if n = 0x18 then BitVec.ofNat 32 c.msgLen.toNat
      else if n = 0x1C then BitVec.ofNat 32 (c.msgLen.toNat / 2 ^ 32)
      else if n = 0x20 then BitVec.ofNat 32 c.remain.toNat
      else if n = 0x24 then BitVec.ofNat 32 (c.remain.toNat / 2 ^ 32)
      else if n = 0x28 then ctrOf c.size.bytes c.ctrblk
      else if 0x40 ≤ n ∧ n < 0x60 then (if (n - 0x40) / 4 < c.size.nw then wordAt c.nonce ((n - 0x40) / 4) else 0)
      else if 0x60 ≤ n ∧ n < 0x80 then (if (n - 0x60) / 4 < bw then wordAt c.ctrblk ((n - 0x60) / 4) else 0)
      else if 0x80 ≤ n ∧ n < 0xA0 then (if (n - 0x80) / 4 < bw then wordAt c.din ((n - 0x80) / 4) else 0)
      else if 0xA0 ≤ n ∧ n < 0xC0 then (if (n - 0xA0) / 4 < bw then wordAt c.dout ((n - 0xA0) / 4) else 0)
      else 0)) ∧
    (Inv c → c.doutv = false → 0xA0 ≤ n → n < 0xC0 → busRead c a = 0)

/-- R67 and R68: a misaligned access is ignored and reads 0; a write to a reserved, unimplemented or read-only address is
ignored, and the reserved ones read 0; reserved bits are not stored and read 0, but those of CMD make the word illegal.
The access kinds of the address map say the same. -/
def Obligations.IgnoredAccesses : Prop :=
  ∀ (s : State) (a : BitVec 8) (d : Word),
    let n := a.toNat
    let B := s.st.size.bytes
    let ignored : Prop := exec (decodeBus ⟨true, a, d⟩) s = .next s
    (n % 4 ≠ 0 → ignored ∧ exec (.rd a) s = .next (s.setRdata 0)) ∧
    ((0x2C ≤ n ∧ n < 0x40) ∨ (0x40 + (B - 4) ≤ n ∧ n < 0x60) ∨ (0x60 + B ≤ n ∧ n < 0x80) ∨ (0x80 + B ≤ n ∧ n < 0xA0) ∨
        0xA0 + B ≤ n → ignored ∧ exec (.rd a) s = .next (s.setRdata 0)) ∧
    (n = 0x00 ∨ n = 0x04 ∨ n = 0x0C ∨ n = 0x20 ∨ n = 0x24 ∨ (0x60 ≤ n ∧ n < 0x80) ∨ 0xA0 ≤ n → ignored) ∧
    (∀ r, regAt a = some r → r.access s.st.size = .ro ∨ r.access s.st.size = .reserved → ignored) ∧
    exec (.wrOther a d) s = .next s ∧
    (busRead s.st 0x10).toNat < 2 ^ 3 ∧ (busRead s.st 0x14).toNat < 2 ^ 6 ∧ (busRead s.st 0x0C).toNat < 2 ^ 12 ∧
    (busRead s.st 0x0C).getLsbD 7 = false ∧ (busRead s.st 0x04).toNat < 2 ^ 16 ∧
    exec (.wrInten d) s = exec (.wrInten (d &&& 0x7)) s ∧
    exec (.wrNonceLen d) s = exec (.wrNonceLen (d &&& 0x3F)) s ∧
    (d.toNat / 16 ≠ 0 → decodeCmd d = .illegal)

/-- Reads change no state but bus_rdata and may be repeated, and a write to a staging register may be repeated (R70). -/
def Obligations.ReadsAndStagingWritesAreIdempotent : Prop :=
  ∀ (s : State) (i : Instr) (a : BitVec 8) (k : Fin 8) (d : Word),
    i = .rd a ∨ i = .wrInten d ∨ i = .wrNonceLen d ∨ i = .wrMsgLenLo d ∨ i = .wrMsgLenHi d ∨ i = .wrNonce k d ∨
      i = .wrDin k d →
    ∃ t, exec i s = .next t ∧ exec i t = .next t ∧ (i = .rd a → t.st = s.st)

/-- A staging register that was written reads back what was stored, and every other address reads as before (R31, R95);
a write to a slot that is not implemented leaves every address as it was. -/
def Obligations.StagingWritesReadBack : Prop :=
  ∀ (s : State) (k : Fin 8) (d : Word) (i : Instr) (at_ : BitVec 8) (v : Word), Inv s.st →
    (i = .wrInten d ∧ at_ = 0x10 ∧ v = d &&& 0x7) ∨ (i = .wrNonceLen d ∧ at_ = 0x14 ∧ v = d &&& 0x3F) ∨
      (i = .wrMsgLenLo d ∧ at_ = 0x18 ∧ v = d) ∨ (i = .wrMsgLenHi d ∧ at_ = 0x1C ∧ v = d) ∨
      (i = .wrNonce k d ∧ at_ = 0x40 + 4 * BitVec.ofNat 8 k.val ∧ v = if k.val < s.st.size.nw then d else 0) ∨
      (i = .wrDin k d ∧ at_ = 0x80 + 4 * BitVec.ofNat 8 k.val ∧ v = if k.val < s.st.size.bytes / 4 then d else 0) →
    ∃ t, exec i s = .next t ∧ busRead t.st at_ = v ∧ ∀ a, a ≠ at_ → busRead t.st a = busRead s.st a

/-- R24: the fields of STATUS, their places and codes; a write to it is ignored, and it reads 0 after reset. The error codes
are those of R200. -/
def Obligations.StatusFieldsStandInPlace : Prop :=
  (∀ (s : State) (d : Word), exec (decodeBus ⟨true, 0x0C, d⟩) s = .next s) ∧
  (∀ z : BlockSize, busRead (Controller.resetOf z) 0x0C = 0) ∧
  (ErrCode.none.code = 0 ∧ ErrCode.invalidNonceLength.code = 1 ∧ ErrCode.keySetup.code = 2 ∧
    ErrCode.plaintextTooLarge.code = 3 ∧ ErrCode.illegalCmd.code = 4 ∧ ErrCode.sequence.code = 5) ∧
  ∀ c : Controller,
    let w := busRead c 0x0C
    w.extractLsb' 0 3 = c.state.code ∧ w.getLsbD 3 = c.ctrv ∧ w.getLsbD 4 = c.doutv ∧ w.getLsbD 5 = c.done ∧
    w.getLsbD 6 = c.err ∧ w.getLsbD 7 = false ∧ w.extractLsb' 8 4 = c.errcode.code ∧ w.extractLsb' 12 20 = 0 ∧
    (c.state.code = 0 ↔ c.state = .idle) ∧ (c.state.code = 1 ↔ c.state = .ready) ∧
    (c.state.code = 2 ↔ c.state = .busy) ∧ (c.state.code = 3 ↔ c.state = .error) ∧
    (c.state.code = 4 ↔ c.state = .drain) ∧ c.state.code.toNat < 5

/-- R22 and R23: ID and PARAM read their constants in every state, and a write to either is ignored. -/
def Obligations.IdAndParamAreConstant : Prop :=
  ∀ (s : State) (d : Word),
    busRead s.st 0x00 = 0x43545231 ∧
    (busRead s.st 0x04).extractLsb' 0 8 = BitVec.ofNat 8 s.st.size.bytes ∧
    (busRead s.st 0x04).extractLsb' 8 8 = BitVec.ofNat 8 (s.st.size.bytes - 4) ∧
    (busRead s.st 0x04).extractLsb' 16 16 = 0 ∧
    (s.st.size = .b16 → busRead s.st 0x04 = 0x00000C10) ∧
    exec (decodeBus ⟨true, 0x00, d⟩) s = .next s ∧ exec (decodeBus ⟨true, 0x04, d⟩) s = .next s

/-- The register at the address of a register is that register (R62), and the host address of an offset selects that
offset (R60). That no other host address selects it, no aliasing, is the model's choice: R71 leaves it to the platform
(assumption log 19). -/
def Obligations.AddressMapIsUnambiguous : Prop :=
  (∀ r : Reg, regAt r.offset = some r) ∧ (∀ (a : BitVec 8) (r : Reg), regAt a = some r → a = r.offset) ∧
  (∀ (p : Nat) (a : BitVec 8), hostSelect p = some a ↔ p = hostAddress a)

/-! ## Errors -/

/-- R209: error entry, field by field; with an error recorded it changes nothing. -/
def Obligations.ErrorEntryRecordsAndClears : Prop :=
  ∀ (c : Controller) (code : ErrCode),
    (c.err = true → c.raiseError code = c) ∧ (c.err = false → c.raiseError code = errorState code c)

/-- R211: of the errors that apply to a CMD write, only the first in the order is raised. -/
def Obligations.FirstErrorInOrderIsRaised : Prop :=
  ∀ (s : State) (w : Word), Inv s.st → s.st.state = .idle ∨ s.st.state = .ready ∨ s.st.state = .busy →
    ∃ t, exec (.wrCmd w) s = .next t ∧ t.st.errcode =
      if decodeCmd w = .illegal then .illegalCmd
      else if (w = 1 ∧ s.st.state ≠ .idle) ∨ (w = 2 ∧ (s.st.state ≠ .idle ∨ s.st.ctrv = false)) ∨
          (w = 3 ∧ s.st.state ≠ .idle) ∨ (w = 4 ∧ s.st.state ≠ .ready) then .sequence
      else if (w = 1 ∨ w = 3) ∧ s.st.nonceLen.toNat ≠ s.st.size.bytes - 4 then .invalidNonceLength
      else if w = 3 ∧ s.st.msgLen.toNat > 2 ^ 32 * s.st.size.bytes then .plaintextTooLarge
      else if w = 3 ∧ s.ports.coreKeyErr = true then .keySetup
      else .none

/-- R214: ERROR is left only by ABORT, to IDLE, or by reset; ABORT in DRAIN clears ERR, and the drain then ends in IDLE;
ABORT keeps the staging registers. -/
def Obligations.OnlyAbortOrResetLeavesError : Prop :=
  (∀ s s' : State, Inv s.st → s.st.state = .error → step s = .next s' → s'.st.state ≠ .error →
    (s.ports.rst = true ∨ writes s.ports 0x08 0x00000005) ∧ s'.st.state = .idle) ∧
  (∀ s t : State, Inv s.st → exec .abort s = .next t →
    t.st.err = false ∧ t.st.nonce = s.st.nonce ∧ t.st.nonceLen = s.st.nonceLen ∧ t.st.msgLen = s.st.msgLen ∧
    t.st.din = s.st.din ∧ t.st.inten = s.st.inten ∧
    (s.st.state = .drain → t.st.state = .drain ∧ ∀ m e, (t.st.coreRespond m e).state = .idle))

/-- R215: while an error is recorded its code stays, whatever happens, until ABORT or reset. -/
def Obligations.FirstErrorStays : Prop :=
  ∀ s s' : State, Inv s.st → s.st.err = true → step s = .next s' → s.ports.rst = false →
    ¬ writes s.ports 0x08 0x00000005 → s'.st.err = true ∧ s'.st.errcode = s.st.errcode

/-- R220: the interrupt line. -/
def Obligations.InterruptLineFollowsEnabledFlags : Prop :=
  ∀ c : Controller, c.irq = true ↔
    (c.inten.getLsbD 0 = true ∧ c.doutv = true) ∨ (c.inten.getLsbD 1 = true ∧ c.done = true) ∨
    (c.inten.getLsbD 2 = true ∧ c.err = true)

/-- R25: CTRV is set only by an INIT or START that passes its checks, and cleared only by error entry, ABORT and reset. -/
def Obligations.CounterValidFlagChanges : Prop :=
  ∀ s s' : State, Inv s.st → step s = .next s' →
    (s.st.ctrv = false → s'.st.ctrv = true →
      s.ports.rst = false ∧ (writes s.ports 0x08 0x00000001 ∨ writes s.ports 0x08 0x00000003) ∧
      s'.st.err = false ∧ s'.st.ctrblk = initCounter s.st.size.bytes s.st.nonce) ∧
    (s.st.ctrv = true → s'.st.ctrv = false →
      s.ports.rst = true ∨ (s.st.err = false ∧ s'.st.err = true) ∨ writes s.ports 0x08 0x00000005)

/-- R26 and R27: DOUTV is set only by a block response in BUSY, DONE only by the last block's or by START of an empty
message; and what clears them. -/
def Obligations.OutputFlagsChange : Prop :=
  ∀ s s' : State, Inv s.st → step s = .next s' →
    (s.st.doutv = false → s'.st.doutv = true →
      s.st.state = .busy ∧ responseTaken s ∧ s.ports.coreRspErr = false) ∧
    (s.st.doutv = true → s'.st.doutv = false →
      s.ports.rst = true ∨ (s.st.err = false ∧ s'.st.err = true) ∨ writes s.ports 0x08 0x00000003 ∨
        writes s.ports 0x08 0x00000004 ∨ writes s.ports 0x08 0x00000005) ∧
    (s.st.done = false → s'.st.done = true →
      (s.st.state = .busy ∧ responseTaken s ∧ s.ports.coreRspErr = false ∧ s.st.remain.toNat = s.st.wlen) ∨
      (writes s.ports 0x08 0x00000003 ∧ s.st.msgLen = 0)) ∧
    (s.st.done = true → s'.st.done = false →
      s.ports.rst = true ∨ (s.st.err = false ∧ s'.st.err = true) ∨ writes s.ports 0x08 0x00000003 ∨
        writes s.ports 0x08 0x00000005)

/-- R212: a response and a CMD write in one cycle: the response acts first. -/
def Obligations.ResponseActsBeforeWriteInOneCycle : Prop :=
  ∀ (s s' : State) (w : Word), Inv s.st → s.st.state = .busy → responseTaken s → s.ports.rst = false →
    writes s.ports 0x08 w → step s = .next s' →
    (s.ports.coreRspErr = true → w ≠ 0x00000005 →
      s'.st = errorState .keySetup { s.st with outst := false, reqblk := zeroBytes s.st.size.bytes } ∧
      s'.st.state = .error) ∧
    (s.ports.coreRspErr = true → w = 0x00000005 → s'.st.state = .idle ∧ s'.st.err = false) ∧
    (s.ports.coreRspErr = false → s.st.remain.toNat = s.st.wlen → w = 0x00000003 →
      s.st.nonceLen.toNat = s.st.size.bytes - 4 → s.st.msgLen.toNat ≤ 2 ^ 32 * s.st.size.bytes →
      s.ports.coreKeyErr = false →
      s'.st.ctrblk = initCounter s.st.size.bytes s.st.nonce ∧ s'.st.remain = s.st.msgLen ∧
      s'.st.dout = zeroBytes s.st.size.bytes ∧ s'.st.state = (if s.st.msgLen = 0 then .idle else .ready)) ∧
    (s.ports.coreRspErr = false → s.st.remain.toNat ≠ s.st.wlen → w = 0x00000004 →
      s'.st.state = .busy ∧ s'.st.reqPend = true ∧ s'.st.reqblk = incCounter s.st.size.bytes s.st.ctrblk ∧
      s'.st.dout = zeroBytes s.st.size.bytes ∧ s'.st.wbuf = s.st.din)

/-- The staging registers do not matter to the block in flight (R264): whatever they hold, the core's part of a cycle does the
same to everything else, and leaves them. -/
def Obligations.StagingWritesDoNotTouchTheBlockInFlight : Prop :=
  ∀ (c : Controller) (p : Ports) (inten : BitVec 3) (nonceLen : BitVec 6) (msgLen : BitVec 64) (nonce din : Bytes),
    ({ c with inten := inten, nonceLen := nonceLen, msgLen := msgLen, nonce := nonce, din := din } : Controller).corePhase p
      = { c.corePhase p with inten := inten, nonceLen := nonceLen, msgLen := msgLen, nonce := nonce, din := din }

/-- R65: byte j of a block is bits [8B-1-8j : 8B-8-8j] of the vector, in both directions. -/
def Obligations.BlockVectorsAreMsbFirst : Prop :=
  ∀ (z : BlockSize) (blk : Bytes) (v : BitVec 256) (j : Nat), blk.length = z.bytes → j < z.bytes →
    (packBlock blk).extractLsb' (8 * z.bytes - 8 - 8 * j) 8 = byteAt blk j ∧
    byteAt (unpackBlock z.bytes v) j = v.extractLsb' (8 * z.bytes - 8 - 8 * j) 8 ∧
    unpackBlock z.bytes (packBlock blk) = blk

/-! ## Messages as a whole -/

/-- R155: what a message outputs. From START in IDLE on, in every interleaving of the host's and the core's steps in which
no error, ABORT or reset intervenes and the core answers with E: the bytes output so far are the first bytes of the
source's encrypt(P, key, n), as many as are no longer remaining; while DOUTV = 1, DOUT is the last chunk, with the bytes
beyond it 0; and when the message has completed, the output is all of encrypt(P, key, n), with the flags, REMAIN and the
counter as the rule says. -/
def Obligations.MessageOutputsTheEncryption : Prop :=
  ∀ (E : Bytes → Bytes) (P : Bytes) (s0 s1 s' : State) (es : List Event),
    Inv s0.st → s0.st.state = .idle → s0.st.nonceLen.toNat = s0.st.size.bytes - 4 →
    s0.st.msgLen.toNat = P.length → 1 ≤ P.length → P.length ≤ 2 ^ 32 * s0.st.size.bytes →
    s0.ports.coreKeyErr = false → exec .start s0 = .next s1 → messageRun E P es s1 → runEvents es s1 = some s' →
    let B := s0.st.size.bytes
    let n := responses es
    outputs es s1 = (ctrEncrypt B E s0.st.nonce P).take (P.length - s'.st.remain.toNat) ∧
    s'.st.remain.toNat = P.length - n * B ∧
    (ctrOf B s'.st.ctrblk).toNat = (1 + n) % 2 ^ 32 ∧
    (s'.st.doutv = true → 1 ≤ n ∧ ∀ j, j < B → byteAt s'.st.dout j =
      if j < min B (P.length - (n - 1) * B) then
        byteAt P ((n - 1) * B + j) ^^^ byteAt (E (counterBlock B s0.st.nonce (n - 1))) j
      else 0) ∧
    (s'.st.state = .idle →
      outputs es s1 = ctrEncrypt B E s0.st.nonce P ∧ (outputs es s1).length = P.length ∧ n = ceilDiv P.length B ∧
      s'.st.done = true ∧ s'.st.doutv = true ∧ s'.st.remain = 0)

/-- R156: running a message on the output of another with the same nonce, block size and core gives its plaintext back. -/
def Obligations.DecryptionIsEncryption : Prop :=
  ∀ (E : Bytes → Bytes) (P : Bytes) (s0 s1 s' u0 u1 u' : State) (es fs : List Event),
    Inv s0.st → s0.st.state = .idle → s0.st.nonceLen.toNat = s0.st.size.bytes - 4 →
    s0.st.msgLen.toNat = P.length → 1 ≤ P.length → P.length ≤ 2 ^ 32 * s0.st.size.bytes →
    s0.ports.coreKeyErr = false → exec .start s0 = .next s1 → messageRun E P es s1 → runEvents es s1 = some s' →
    s'.st.state = .idle →
    Inv u0.st → u0.st.state = .idle → u0.st.nonceLen = s0.st.nonceLen → u0.st.nonce = s0.st.nonce →
    u0.st.size = s0.st.size → u0.st.msgLen = s0.st.msgLen → u0.ports.coreKeyErr = false →
    exec .start u0 = .next u1 → messageRun E (outputs es s1) fs u1 → runEvents fs u1 = some u' →
    u'.st.state = .idle → outputs fs u1 = P

/-- R157 and R158: at every point of a message the blocks asked of the core are the nonce with the counter integers 1, 2,
3, … mod 2^32, in block order and none twice, one for each BLOCK (the last may still be pending); and a completed message
of blockCount blocks has asked exactly blockCount times. -/
def Obligations.OneRequestPerBlockWithFreshCounter : Prop :=
  ∀ (E : Bytes → Bytes) (P : Bytes) (s0 s1 s' : State) (es : List Event),
    Inv s0.st → s0.st.state = .idle → s0.st.nonceLen.toNat = s0.st.size.bytes - 4 →
    s0.st.msgLen.toNat = P.length → 1 ≤ P.length → P.length ≤ 2 ^ 32 * s0.st.size.bytes →
    s0.ports.coreKeyErr = false → exec .start s0 = .next s1 → messageRun E P es s1 → runEvents es s1 = some s' →
    let blockCount := ceilDiv P.length s0.st.size.bytes
    let asked := requests es s1
    asked = (List.range asked.length).map (counterBlock s0.st.size.bytes s0.st.nonce) ∧ asked.Nodup ∧
    asked.length ≤ blockCount ∧
    blocksIssued es s1 = asked.length + (if s'.st.reqPend = true then 1 else 0) ∧
    (s'.st.state = .idle → asked.length = blockCount ∧ blocksIssued es s1 = blockCount)

/-- The timing of a block (R270): BLOCK written in cycle t, the core ready in t+1 and answering in t+2, gives the output
after three cycles, and the controller is in READY or IDLE, when nothing else is presented. -/
def Obligations.BlockTakesThreeCycles : Prop :=
  ∀ (s : State) (p0 p1 p2 : Ports) (ps : List Ports), Inv s.st → s.st.state = .ready →
    s.inputs = p0 :: p1 :: p2 :: ps → p0.rst = false → p1.rst = false → p2.rst = false →
    writes p0 0x08 0x00000004 → p1.busSel = false → p2.busSel = false →
    p1.coreReqReady = true → p2.coreRspValid = true → p2.coreRspErr = false →
    ∃ s', Sys2Proof.core.run 3 s = .next s' ∧ s'.inputs = ps ∧ s'.st.doutv = true ∧ (s'.st.state = .ready ∨ s'.st.state = .idle) ∧
      s'.st.dout = mix s.st.size.bytes s.st.din (unpackBlock s.st.size.bytes p2.coreRspBlock)
        (min s.st.size.bytes s.st.remain.toNat) ∧
      s'.st.ctrblk = incCounter s.st.size.bytes s.st.ctrblk

/-- The pseudo-instructions that load a message (R101): WR64 sets MSG_LEN; LDNONCE sets NONCE_LEN to B-4 and the nonce
words; LDDIN sets the words of the input chunk; nothing else changes. R101 gives the exact number of words; that a missing
word counts as 0 and an extra one is dropped is the model's choice (assumption log 20). -/
def Obligations.LoadPseudoInstructionsLoad : Prop :=
  ∀ (s : State) (ws : List Word) (v : BitVec 64), Inv s.st →
    runItems ((Pseudo.wr64 v).expand s.st.size) s = .next (s.setSt { s.st with msgLen := v }) ∧
    (∃ n : Bytes, runItems ((Pseudo.ldNonce ws).expand s.st.size) s = .next (s.setSt { s.st with
        nonceLen := BitVec.ofNat 6 (s.st.size.bytes - 4), nonce := n }) ∧
      n.length = s.st.size.bytes - 4 ∧ ∀ k, k < s.st.size.nw → wordAt n k = ws.getD k 0) ∧
    (∃ d : Bytes, runItems ((Pseudo.ldDin ws).expand s.st.size) s = .next (s.setSt { s.st with din := d }) ∧
      d.length = s.st.size.bytes ∧ ∀ k, k < s.st.size.bw → wordAt d k = ws.getD k 0)
end

