-- ==== Sys2Proof/Laws/Bytes.lean ====
section
/-! SUPPORT. What the byte operations of Machine/Operands.lean do, byte by byte. -/

namespace Sys2Proof

namespace BlockSize

/-- Every legal size has B = 4*(NW+1) with 1 <= NW <= 7 (R6). -/
theorem facts (z : BlockSize) :
    z.bytes = 4 * (z.nw + 1) ∧ z.bw = z.nw + 1 ∧ z.nonceBytes = 4 * z.nw ∧ 1 ≤ z.nw ∧ z.nw ≤ 7 := by
  cases z <;> decide

theorem bytes_pos (z : BlockSize) : 0 < z.bytes := by cases z <;> decide
theorem nonceBytes_eq (z : BlockSize) : z.nonceBytes = z.bytes - 4 := rfl
theorem four_le_bytes (z : BlockSize) : 8 ≤ z.bytes := by cases z <;> decide
theorem bytes_le (z : BlockSize) : z.bytes ≤ 32 := by cases z <;> decide

end BlockSize

namespace Machine

@[simp] theorem length_mkBytes (n : Nat) (f : Nat → Byte) : (mkBytes n f).length = n := by
  simp [mkBytes]

/-- Byte `j` of a sequence given byte by byte. -/
theorem byteAt_mkBytes (n : Nat) (f : Nat → Byte) (j : Nat) :
    byteAt (mkBytes n f) j = if j < n then f j else 0 := by
  unfold byteAt mkBytes
  by_cases h : j < n <;> simp [List.getD, h]

@[simp] theorem length_zeroBytes (n : Nat) : (zeroBytes n).length = n := by simp [zeroBytes]

@[simp] theorem byteAt_zeroBytes (n j : Nat) : byteAt (zeroBytes n) j = 0 := by
  unfold byteAt zeroBytes
  by_cases h : j < n <;> simp [List.getD, h]

/-- Two sequences of one length with the same bytes are equal. -/
theorem bytes_ext {a b : Bytes} (hl : a.length = b.length) (h : ∀ j, j < a.length → byteAt a j = byteAt b j) : a = b := by
  apply List.ext_getElem hl
  intro j h1 h2
  have := h j h1
  simpa [byteAt, List.getD, h1, h2] using this

/-- Reading past the end of a sequence gives 0. -/
theorem byteAt_of_le {b : Bytes} {j : Nat} (h : b.length ≤ j) : byteAt b j = 0 := by
  simp [byteAt, List.getD, List.getElem?_eq_none h]

/-- Below its length a prefix has the sequence's bytes. -/
theorem byteAt_take {b : Bytes} {n j : Nat} (h : j < n) : byteAt (b.take n) j = byteAt b j := by
  simp [byteAt, List.getD, h]

/-- Byte `j` of two sequences one after the other. -/
theorem byteAt_append (a b : Bytes) (j : Nat) :
    byteAt (a ++ b) j = if j < a.length then byteAt a j else byteAt b (j - a.length) := by
  unfold byteAt
  split
  · simp [List.getD, List.getElem?_append_left, *]
  · simp [List.getD, List.getElem?_append_right (Nat.le_of_not_lt ‹_›)]

/-! ## Big-endian words -/

theorem be32Byte_toNat (v : Word) (i : Nat) : (be32Byte v i).toNat = v.toNat / 2 ^ (24 - 8 * i) % 2 ^ 8 := by
  simp [be32Byte, BitVec.extractLsb'_toNat, Nat.shiftRight_eq_div_pow]

/-- The bytes of a word, put together, are the word (R10). -/
@[simp] theorem be32_be32Byte (v : Word) :
    be32 (be32Byte v 0) (be32Byte v 1) (be32Byte v 2) (be32Byte v 3) = v := by
  apply BitVec.eq_of_toNat_eq
  have h := v.isLt
  simp only [be32, BitVec.toNat_ofNat, be32Byte_toNat]
  omega

/-- The four bytes of a word built from four bytes (R10). -/
theorem be32Byte_be32 (b0 b1 b2 b3 : Byte) :
    be32Byte (be32 b0 b1 b2 b3) 0 = b0 ∧ be32Byte (be32 b0 b1 b2 b3) 1 = b1 ∧
      be32Byte (be32 b0 b1 b2 b3) 2 = b2 ∧ be32Byte (be32 b0 b1 b2 b3) 3 = b3 := by
  have h0 := b0.isLt
  have h1 := b1.isLt
  have h2 := b2.isLt
  have h3 := b3.isLt
  refine ⟨?_, ?_, ?_, ?_⟩ <;>
    (apply BitVec.eq_of_toNat_eq; rw [be32Byte_toNat]; simp only [be32, BitVec.toNat_ofNat]; omega)

@[simp] theorem length_setWord (n : Nat) (buf : Bytes) (k : Nat) (d : Word) : (setWord n buf k d).length = n := by
  simp [setWord]

/-- Byte `j` after a word is set: of the new word inside it, the old byte outside (R95). -/
theorem byteAt_setWord (n : Nat) (buf : Bytes) (k : Nat) (d : Word) (j : Nat) :
    byteAt (setWord n buf k d) j
      = if j < n then if 4 * k ≤ j ∧ j < 4 * k + 4 then be32Byte d (j - 4 * k) else byteAt buf j else 0 := by
  rw [setWord, byteAt_mkBytes]

/-- A word that was set reads back (R64, R95). -/
theorem wordAt_setWord_self {n k : Nat} (buf : Bytes) (d : Word) (h : 4 * k + 4 ≤ n) :
    wordAt (setWord n buf k d) k = d := by
  have e0 : byteAt (setWord n buf k d) (4 * k) = be32Byte d 0 := by
    rw [byteAt_setWord, if_pos (by omega), if_pos (by omega)]; congr 1; omega
  have e1 : byteAt (setWord n buf k d) (4 * k + 1) = be32Byte d 1 := by
    rw [byteAt_setWord, if_pos (by omega), if_pos (by omega)]; congr 1; omega
  have e2 : byteAt (setWord n buf k d) (4 * k + 2) = be32Byte d 2 := by
    rw [byteAt_setWord, if_pos (by omega), if_pos (by omega)]; congr 1; omega
  have e3 : byteAt (setWord n buf k d) (4 * k + 3) = be32Byte d 3 := by
    rw [byteAt_setWord, if_pos (by omega), if_pos (by omega)]; congr 1; omega
  rw [wordAt, e0, e1, e2, e3, be32_be32Byte]

/-- Another word of the buffer reads as before. -/
theorem wordAt_setWord_ne {n k i : Nat} (buf : Bytes) (d : Word) (h : 4 * i + 4 ≤ n) (hk : i ≠ k) :
    wordAt (setWord n buf k d) i = wordAt buf i := by
  have e : ∀ r, r < 4 → byteAt (setWord n buf k d) (4 * i + r) = byteAt buf (4 * i + r) := by
    intro r hr
    rw [byteAt_setWord, if_pos (by omega), if_neg (by omega)]
  have e0 := e 0 (by omega)
  rw [wordAt, wordAt, e 1 (by omega), e 2 (by omega), e 3 (by omega)]
  simpa using congrArg (fun x => be32 x _ _ _) e0

/-- A word of a zero buffer is 0. -/
@[simp] theorem wordAt_zeroBytes (n k : Nat) : wordAt (zeroBytes n) k = 0 := by
  simp [wordAt, be32]

/-! ## The counter block -/

@[simp] theorem length_setCtr (B : Nat) (blk : Bytes) (v : Word) : (setCtr B blk v).length = B := by simp [setCtr]
@[simp] theorem length_initCounter (B : Nat) (n : Bytes) : (initCounter B n).length = B := by simp [initCounter]
@[simp] theorem length_incCounter (B : Nat) (b : Bytes) : (incCounter B b).length = B := by simp [incCounter]
@[simp] theorem length_mix (B : Nat) (w m : Bytes) (n : Nat) : (mix B w m n).length = B := by simp [mix]
@[simp] theorem length_unpackBlock (B : Nat) (v : BitVec 256) : (unpackBlock B v).length = B := by simp [unpackBlock]

/-- Byte `j` after the counter integer is set (R10). -/
theorem byteAt_setCtr (B : Nat) (blk : Bytes) (v : Word) (j : Nat) :
    byteAt (setCtr B blk v) j
      = if j < B then if j < B - 4 then byteAt blk j else be32Byte v (j - (B - 4)) else 0 := by
  rw [setCtr, byteAt_mkBytes]

/-- The counter integer that was set reads back. -/
theorem ctrOf_setCtr {B : Nat} (hB : 4 ≤ B) (blk : Bytes) (v : Word) : ctrOf B (setCtr B blk v) = v := by
  have e0 : byteAt (setCtr B blk v) (B - 4) = be32Byte v 0 := by
    rw [byteAt_setCtr, if_pos (by omega), if_neg (by omega)]; congr 1; omega
  have e1 : byteAt (setCtr B blk v) (B - 3) = be32Byte v 1 := by
    rw [byteAt_setCtr, if_pos (by omega), if_neg (by omega)]; congr 1; omega
  have e2 : byteAt (setCtr B blk v) (B - 2) = be32Byte v 2 := by
    rw [byteAt_setCtr, if_pos (by omega), if_neg (by omega)]; congr 1; omega
  have e3 : byteAt (setCtr B blk v) (B - 1) = be32Byte v 3 := by
    rw [byteAt_setCtr, if_pos (by omega), if_neg (by omega)]; congr 1; omega
  rw [ctrOf, e0, e1, e2, e3, be32_be32Byte]

/-- Setting the counter integer keeps the prefix (R10). -/
theorem take_setCtr {B : Nat} {blk : Bytes} (hl : B - 4 ≤ blk.length) (v : Word) :
    (setCtr B blk v).take (B - 4) = blk.take (B - 4) := by
  apply bytes_ext
  · simp only [List.length_take, length_setCtr]; omega
  · intro j hj
    simp only [List.length_take, length_setCtr] at hj
    rw [byteAt_take (by omega), byteAt_take (by omega), byteAt_setCtr, if_pos (by omega), if_pos (by omega)]

/-- The counter integer is the block's last word (R64). -/
theorem ctrOf_eq_wordAt {B k : Nat} (h : B = 4 * (k + 1)) (blk : Bytes) : ctrOf B blk = wordAt blk k := by
  subst h
  have e0 : 4 * (k + 1) - 4 = 4 * k := by omega
  have e1 : 4 * (k + 1) - 3 = 4 * k + 1 := by omega
  have e2 : 4 * (k + 1) - 2 = 4 * k + 2 := by omega
  have e3 : 4 * (k + 1) - 1 = 4 * k + 3 := by omega
  rw [ctrOf, wordAt, e0, e1, e2, e3]

@[simp] theorem ctrOf_zeroBytes (B n : Nat) : ctrOf B (zeroBytes n) = 0 := by simp [ctrOf, be32]

/-- Setting the counter integer twice keeps the second. -/
theorem setCtr_setCtr (B : Nat) (blk : Bytes) (v w : Word) : setCtr B (setCtr B blk v) w = setCtr B blk w := by
  apply bytes_ext (by simp)
  intro j hj
  simp only [length_setCtr] at hj
  simp only [byteAt_setCtr, if_pos hj]
  split <;> rfl

/-- Byte `j` of the mixer's output (R130). -/
theorem byteAt_mix (B : Nat) (w m : Bytes) (n j : Nat) :
    byteAt (mix B w m n) j = if j < B then if j < n then byteAt w j ^^^ byteAt m j else 0 else 0 := by
  rw [mix, byteAt_mkBytes]

theorem chunkLen_eq_min (B r : Nat) : chunkLen B r = min B r := by
  unfold chunkLen; split <;> omega

end Machine

end Sys2Proof
end

