-- ==== Sys2Proof/Laws/State.lean ====
section
/-! SUPPORT. The small lemmas of the state's updates: one per field and update, so that no proof unfolds a record update. -/

namespace Sys2Proof.Machine

/-! ## State -/

@[simp] theorem State.setSt_st (s : State) (c : Controller) : (s.setSt c).st = c := rfl
@[simp] theorem State.setSt_busRdata (s : State) (c : Controller) : (s.setSt c).busRdata = s.busRdata := rfl
@[simp] theorem State.setSt_inputs (s : State) (c : Controller) : (s.setSt c).inputs = s.inputs := rfl
@[simp] theorem State.setSt_cycle (s : State) (c : Controller) : (s.setSt c).cycle = s.cycle := rfl
@[simp] theorem State.setSt_ports (s : State) (c : Controller) : (s.setSt c).ports = s.ports := rfl
@[simp] theorem State.setSt_self (s : State) : s.setSt s.st = s := rfl
@[simp] theorem State.setSt_setSt (s : State) (c d : Controller) : (s.setSt c).setSt d = s.setSt d := rfl

@[simp] theorem State.setRdata_st (s : State) (v : Word) : (s.setRdata v).st = s.st := rfl
@[simp] theorem State.setRdata_busRdata (s : State) (v : Word) : (s.setRdata v).busRdata = v := rfl
@[simp] theorem State.setRdata_inputs (s : State) (v : Word) : (s.setRdata v).inputs = s.inputs := rfl
@[simp] theorem State.setRdata_cycle (s : State) (v : Word) : (s.setRdata v).cycle = s.cycle := rfl
@[simp] theorem State.setRdata_ports (s : State) (v : Word) : (s.setRdata v).ports = s.ports := rfl
@[simp] theorem State.setRdata_setRdata (s : State) (v w : Word) : (s.setRdata v).setRdata w = s.setRdata w := rfl

@[simp] theorem State.endCycle_st (s : State) : s.endCycle.st = s.st := rfl
@[simp] theorem State.endCycle_busRdata (s : State) : s.endCycle.busRdata = s.busRdata := rfl
@[simp] theorem State.endCycle_inputs (s : State) : s.endCycle.inputs = s.inputs.tail := rfl
@[simp] theorem State.endCycle_cycle (s : State) : s.endCycle.cycle = s.cycle + 1 := rfl

@[simp] theorem State.present_st (s : State) (p : Ports) : (s.present p).st = s.st := rfl
@[simp] theorem State.present_busRdata (s : State) (p : Ports) : (s.present p).busRdata = s.busRdata := rfl
@[simp] theorem State.present_inputs (s : State) (p : Ports) : (s.present p).inputs = p :: s.inputs := rfl
@[simp] theorem State.present_cycle (s : State) (p : Ports) : (s.present p).cycle = s.cycle := rfl
@[simp] theorem State.present_ports (s : State) (p : Ports) : (s.present p).ports = p := rfl

@[simp] theorem portsWithTxn_rst (p : Ports) (t : BusTxn) : (portsWithTxn p t).rst = false := rfl
@[simp] theorem portsWithTxn_busSel (p : Ports) (t : BusTxn) : (portsWithTxn p t).busSel = true := rfl
@[simp] theorem portsWithTxn_busWe (p : Ports) (t : BusTxn) : (portsWithTxn p t).busWe = t.we := rfl
@[simp] theorem portsWithTxn_coreReqReady (p : Ports) (t : BusTxn) : (portsWithTxn p t).coreReqReady = false := rfl
@[simp] theorem portsWithTxn_coreRspValid (p : Ports) (t : BusTxn) : (portsWithTxn p t).coreRspValid = false := rfl
@[simp] theorem portsWithTxn_coreKeyErr (p : Ports) (t : BusTxn) : (portsWithTxn p t).coreKeyErr = p.coreKeyErr := rfl
@[simp] theorem portsTxn_portsWithTxn (p : Ports) (t : BusTxn) : portsTxn (portsWithTxn p t) = t := rfl

/-! ## The controller's shared updates -/

namespace Controller

@[simp] theorem discardWork_size (c : Controller) : c.discardWork.size = c.size := rfl
@[simp] theorem discardWork_state (c : Controller) : c.discardWork.state = c.state := rfl
@[simp] theorem discardWork_ctrblk (c : Controller) : c.discardWork.ctrblk = zeroBytes c.size.bytes := rfl
@[simp] theorem discardWork_ctrv (c : Controller) : c.discardWork.ctrv = false := rfl
@[simp] theorem discardWork_nonce (c : Controller) : c.discardWork.nonce = c.nonce := rfl
@[simp] theorem discardWork_nonceLen (c : Controller) : c.discardWork.nonceLen = c.nonceLen := rfl
@[simp] theorem discardWork_msgLen (c : Controller) : c.discardWork.msgLen = c.msgLen := rfl
@[simp] theorem discardWork_remain (c : Controller) : c.discardWork.remain = 0 := rfl
@[simp] theorem discardWork_din (c : Controller) : c.discardWork.din = c.din := rfl
@[simp] theorem discardWork_dout (c : Controller) : c.discardWork.dout = zeroBytes c.size.bytes := rfl
@[simp] theorem discardWork_doutv (c : Controller) : c.discardWork.doutv = false := rfl
@[simp] theorem discardWork_done (c : Controller) : c.discardWork.done = false := rfl
@[simp] theorem discardWork_err (c : Controller) : c.discardWork.err = c.err := rfl
@[simp] theorem discardWork_errcode (c : Controller) : c.discardWork.errcode = c.errcode := rfl
@[simp] theorem discardWork_inten (c : Controller) : c.discardWork.inten = c.inten := rfl
@[simp] theorem discardWork_wbuf (c : Controller) : c.discardWork.wbuf = zeroBytes c.size.bytes := rfl
@[simp] theorem discardWork_wlen (c : Controller) : c.discardWork.wlen = 0 := rfl
@[simp] theorem discardWork_reqblk (c : Controller) : c.discardWork.reqblk = c.reqblk := rfl
@[simp] theorem discardWork_reqPend (c : Controller) : c.discardWork.reqPend = c.reqPend := rfl
@[simp] theorem discardWork_outst (c : Controller) : c.discardWork.outst = c.outst := rfl

/-! ### The fields error entry keeps in every case (R209) -/

@[simp] theorem raiseError_size (c : Controller) (e : ErrCode) : (c.raiseError e).size = c.size := by
  unfold raiseError; split <;> rfl
@[simp] theorem raiseError_nonce (c : Controller) (e : ErrCode) : (c.raiseError e).nonce = c.nonce := by
  unfold raiseError; split <;> rfl
@[simp] theorem raiseError_nonceLen (c : Controller) (e : ErrCode) : (c.raiseError e).nonceLen = c.nonceLen := by
  unfold raiseError; split <;> rfl
@[simp] theorem raiseError_msgLen (c : Controller) (e : ErrCode) : (c.raiseError e).msgLen = c.msgLen := by
  unfold raiseError; split <;> rfl
@[simp] theorem raiseError_din (c : Controller) (e : ErrCode) : (c.raiseError e).din = c.din := by
  unfold raiseError; split <;> rfl
@[simp] theorem raiseError_inten (c : Controller) (e : ErrCode) : (c.raiseError e).inten = c.inten := by
  unfold raiseError; split <;> rfl
@[simp] theorem raiseError_reqblk (c : Controller) (e : ErrCode) : (c.raiseError e).reqblk = c.reqblk := by
  unfold raiseError; split <;> rfl
@[simp] theorem raiseError_reqPend (c : Controller) (e : ErrCode) : (c.raiseError e).reqPend = c.reqPend := by
  unfold raiseError; split <;> rfl
@[simp] theorem raiseError_outst (c : Controller) (e : ErrCode) : (c.raiseError e).outst = c.outst := by
  unfold raiseError; split <;> rfl
@[simp] theorem raiseError_err (c : Controller) (e : ErrCode) : (c.raiseError e).err = true := by
  unfold raiseError; split <;> simp_all

/-- The first error wins: with an error recorded, error entry changes nothing (R209). -/
theorem raiseError_of_err {c : Controller} (h : c.err = true) (e : ErrCode) : c.raiseError e = c := by
  simp [raiseError, h]

/-- Without an error recorded, error entry records this one, discards the work, and goes to DRAIN or ERROR (R209). -/
theorem raiseError_of_no_err {c : Controller} (h : c.err = false) (e : ErrCode) :
    c.raiseError e = { c.discardWork with
      err := true, errcode := e, state := if c.inFlight then .drain else .error } := by
  simp [raiseError, h]

/-! ### The request's updates -/

@[simp] theorem endRequest_size (c : Controller) : c.endRequest.size = c.size := rfl
@[simp] theorem endRequest_state (c : Controller) : c.endRequest.state = c.state := rfl
@[simp] theorem endRequest_err (c : Controller) : c.endRequest.err = c.err := rfl
@[simp] theorem endRequest_outst (c : Controller) : c.endRequest.outst = false := rfl
@[simp] theorem endRequest_reqPend (c : Controller) : c.endRequest.reqPend = c.reqPend := rfl
@[simp] theorem endRequest_reqblk (c : Controller) : c.endRequest.reqblk = zeroBytes c.size.bytes := rfl
@[simp] theorem endRequest_inFlight (c : Controller) : c.endRequest.inFlight = c.reqPend := by
  simp [inFlight]

@[simp] theorem resetOf_size (z : BlockSize) : (resetOf z).size = z := rfl
@[simp] theorem resetOf_state (z : BlockSize) : (resetOf z).state = .idle := rfl
@[simp] theorem resetOf_err (z : BlockSize) : (resetOf z).err = false := rfl

end Controller

end Sys2Proof.Machine
end

