-- ==== Sys2Proof/Laws/Ops.lean ====
section
/-! SUPPORT. What the shared operations can do, said once: the outcome of an instruction, of the core's part of a cycle and
of a cycle, with the inversion lemmas that every invariant is proved from. -/

namespace Sys2Proof.Machine

open Sys2Proof.Safety

/-! ## guarded -/

theorem Controller.guarded_deaf {c : Controller} (h : c.deaf = true) (ok : Bool) (run : Controller → Controller) :
    c.guarded ok run = c := by simp [guarded, h]

theorem Controller.guarded_ok {c : Controller} (h : c.deaf = false) (run : Controller → Controller) :
    c.guarded true run = run c := by simp [guarded, h]

theorem Controller.guarded_illegal {c : Controller} (h : c.deaf = false) (run : Controller → Controller) :
    c.guarded false run = c.raiseError .sequence := by simp [guarded, h]

theorem Controller.deaf_eq_true_iff (c : Controller) : c.deaf = true ↔ c.state = .error ∨ c.state = .drain := by
  simp [deaf]

theorem Controller.deaf_eq_false_iff (c : Controller) :
    c.deaf = false ↔ c.state = .idle ∨ c.state = .ready ∨ c.state = .busy := by
  unfold deaf; cases c.state <;> simp

/-- Error entry, with no error recorded, leaves the state that R209 lists. -/
theorem Controller.raiseError_eq_errorState {c : Controller} (h : c.err = false) (code : ErrCode) :
    c.raiseError code = errorState code c := by
  rw [Controller.raiseError_of_no_err h]
  simp only [errorState, Controller.discardWork, Controller.inFlight, Bool.or_eq_true]

/-! ## The outcome of an instruction -/

/-- The next state of an instruction. -/
def execState (i : Instr) (s : State) : State :=
  match exec i s with
  | .next t => t
  | .fault _ => s
  | .refused _ => s

/-- A command that a write to CMD carries is the command itself (R210, R173). -/
theorem execWrCmd_eq (d : Word) (s : State) : execWrCmd d s = exec ((decodeCmd d).instr d) s := by
  unfold execWrCmd
  by_cases h : s.st.deaf = true
  · rw [if_pos h]
    by_cases hd : d = 0x00000005
    · subst hd; rfl
    · rw [if_neg hd]
      have hne : decodeCmd d ≠ .abort := by
        intro e
        apply hd
        unfold decodeCmd at e
        split at e
        · cases e
        · rename_i h0
          split at e <;> try cases e
          rename_i h5
          apply BitVec.eq_of_toNat_eq
          have hlt := d.isLt
          have a : d.toNat / 16 % 2 ^ 28 = 0 := by
            have := congrArg BitVec.toNat (not_not.mp h0)
            simpa [BitVec.extractLsb'_toNat, Nat.shiftRight_eq_div_pow] using this
          have b : d.toNat % 2 ^ 4 = 5 := by
            simpa [BitVec.extractLsb'_toNat] using h5
          have : (0x00000005 : Word).toNat = 5 := rfl
          omega
      cases hc : decodeCmd d <;>
        simp_all [Cmd.instr, exec, execNop, execInit, execInc, execStart, execBlock, execIllegal, Controller.guarded]
  · rw [if_neg h]
    cases decodeCmd d <;> rfl

/-- Every instruction answers a next state, and leaves the inputs and the cycle count alone. -/
theorem exec_eq (i : Instr) (s : State) :
    exec i s = .next (execState i s) ∧ (execState i s).inputs = s.inputs ∧ (execState i s).cycle = s.cycle := by
  have hcmd : ∀ (m : Cmd) (w : Word), exec (m.instr w) s = .next (execState (m.instr w) s) ∧
      (execState (m.instr w) s).inputs = s.inputs ∧ (execState (m.instr w) s).cycle = s.cycle := by
    intro m w; cases m <;> exact ⟨rfl, rfl, rfl⟩
  cases i with
  | wrCmd d =>
    have h : exec (.wrCmd d) s = exec ((decodeCmd d).instr d) s := execWrCmd_eq d s
    unfold execState
    rw [h]
    exact hcmd (decodeCmd d) d
  | wrNonce k d =>
    refine ⟨rfl, ?_⟩
    simp only [execState, exec, execWrNonce]
    split <;> exact ⟨rfl, rfl⟩
  | wrDin k d =>
    refine ⟨rfl, ?_⟩
    simp only [execState, exec, execWrDin]
    split <;> exact ⟨rfl, rfl⟩
  | _ => exact ⟨rfl, rfl, rfl⟩

theorem exec_next (i : Instr) (s : State) : exec i s = .next (execState i s) := (exec_eq i s).1

@[simp] theorem execState_inputs (i : Instr) (s : State) : (execState i s).inputs = s.inputs := (exec_eq i s).2.1
@[simp] theorem execState_cycle (i : Instr) (s : State) : (execState i s).cycle = s.cycle := (exec_eq i s).2.2
@[simp] theorem execState_ports (i : Instr) (s : State) : (execState i s).ports = s.ports := by
  simp [State.ports]

theorem execState_of_exec {i : Instr} {s t : State} (h : exec i s = .next t) : execState i s = t := by
  simp [execState, h]

theorem execState_wrCmd (d : Word) (s : State) : execState (.wrCmd d) s = execState ((decodeCmd d).instr d) s :=
  execState_of_exec (i := .wrCmd d) ((execWrCmd_eq d s).trans (exec_next _ _))

/-- Everything a host instruction can do to the controller (43_control.md, 40_counter.md, 42_message.md, R209). -/
inductive HostEffect (c : Controller) : Controller → Prop where
  | same : HostEffect c c
  | error (code : ErrCode) : code ≠ .none → c.deaf = false → HostEffect c (c.raiseError code)
  | init : c.state = .idle → c.nonceLen.toNat = c.size.nonceBytes →
      HostEffect c { c with ctrblk := initCounter c.size.bytes c.nonce, ctrv := true }
  | ctr (v : Word) : c.state = .idle → c.ctrv = true →
      HostEffect c { c with ctrblk := setCtr c.size.bytes c.ctrblk v }
  | start : c.state = .idle → c.nonceLen.toNat = c.size.nonceBytes →
      c.msgLen.toNat ≤ Config.maxBlocks * c.size.bytes →
      HostEffect c { c with
        ctrblk := initCounter c.size.bytes c.nonce, ctrv := true
        remain := c.msgLen
        dout := zeroBytes c.size.bytes, doutv := false
        done := if c.msgLen = 0 then true else false
        state := if c.msgLen = 0 then .idle else .ready }
  | block : c.state = .ready → HostEffect c c.runBlock
  | abort : HostEffect c c.abortWork
  | staging (inten : BitVec 3) (nonceLen : BitVec 6) (msgLen : BitVec 64) (nonce din : Bytes) :
      (c.nonce.length = c.size.nonceBytes → nonce.length = c.size.nonceBytes) →
      (c.din.length = c.size.bytes → din.length = c.size.bytes) →
      HostEffect c { c with inten := inten, nonceLen := nonceLen, msgLen := msgLen, nonce := nonce, din := din }

theorem guarded_hostEffect {c : Controller} {ok : Bool} {run : Controller → Controller}
    (h : c.deaf = false → ok = true → HostEffect c (run c)) : HostEffect c (c.guarded ok run) := by
  unfold Controller.guarded
  split
  · exact .same
  · rename_i hd
    have hd : c.deaf = false := by simpa using hd
    split
    · exact h hd ‹_›
    · exact .error _ (by decide) hd

theorem runStart_hostEffect {c : Controller} {k : Bool} (hd : c.deaf = false) (hi : c.state = .idle) :
    HostEffect c (c.runStart k) := by
  unfold Controller.runStart
  split
  · exact .error _ (by decide) hd
  · split
    · exact .error _ (by decide) hd
    · split
      · exact .error _ (by decide) hd
      · exact .start hi (by simp_all) (by omega)

theorem command_hostEffect (m : Cmd) (w : Word) (s : State) : HostEffect s.st (execState (m.instr w) s).st := by
  cases m with
  | nop => exact guarded_hostEffect fun _ _ => .same
  | init =>
    refine guarded_hostEffect fun hd hl => ?_
    unfold Controller.runInit
    split
    · exact .error _ (by decide) hd
    · exact .init (by simpa [legal] using hl) (by simp_all)
  | inc =>
    refine guarded_hostEffect fun _ hl => ?_
    simp only [legal, Bool.and_eq_true, decide_eq_true_eq] at hl
    exact .ctr _ hl.1 hl.2
  | start => exact guarded_hostEffect fun hd hl => runStart_hostEffect hd (by simpa [legal] using hl)
  | block => exact guarded_hostEffect fun _ hl => .block (by simpa [legal] using hl)
  | abort => exact .abort
  | illegal =>
    show HostEffect s.st (if s.st.deaf then s.st else s.st.raiseError .illegalCmd)
    split
    · exact .same
    · exact .error _ (by decide) (by simp_all)

/-- What an instruction does to the controller is one of the effects. -/
theorem exec_hostEffect (i : Instr) (s : State) : HostEffect s.st (execState i s).st := by
  cases i with
  | nop => exact command_hostEffect .nop 0 s
  | init => exact command_hostEffect .init 0 s
  | inc => exact command_hostEffect .inc 0 s
  | start => exact command_hostEffect .start 0 s
  | block => exact command_hostEffect .block 0 s
  | abort => exact command_hostEffect .abort 0 s
  | illegal w => exact command_hostEffect .illegal w s
  | wrCmd d =>
    rw [execState_wrCmd]
    exact command_hostEffect _ _ _
  | wrInten d => exact .staging _ s.st.nonceLen s.st.msgLen s.st.nonce s.st.din id id
  | wrNonceLen d => exact .staging s.st.inten _ s.st.msgLen s.st.nonce s.st.din id id
  | wrMsgLenLo d => exact .staging s.st.inten s.st.nonceLen _ s.st.nonce s.st.din id id
  | wrMsgLenHi d => exact .staging s.st.inten s.st.nonceLen _ s.st.nonce s.st.din id id
  | wrCtr d =>
    show HostEffect s.st (s.st.guarded (legal .inc s.st) fun c => { c with ctrblk := setCtr c.size.bytes c.ctrblk d })
    refine guarded_hostEffect fun _ hl => ?_
    simp only [legal, Bool.and_eq_true, decide_eq_true_eq] at hl
    exact .ctr d hl.1 hl.2
  | wrNonce k d =>
    simp only [execState, exec, execWrNonce]
    split
    · exact .staging s.st.inten s.st.nonceLen s.st.msgLen _ s.st.din (fun _ => by simp) id
    · exact .same
  | wrDin k d =>
    simp only [execState, exec, execWrDin]
    split
    · exact .staging s.st.inten s.st.nonceLen s.st.msgLen s.st.nonce _ id (fun _ => by simp)
    · exact .same
  | wrOther a d => exact .same
  | rd a => exact .same

/-- No host effect changes the block size. -/
theorem hostEffect_size {c d : Controller} (h : HostEffect c d) : d.size = c.size := by
  cases h with
  | error code _ _ => exact Controller.raiseError_size c code
  | _ => rfl

/-! ## The core's part of a cycle -/

@[simp] theorem Controller.coreRespond_size (c : Controller) (m : Bytes) (e : Bool) :
    (c.coreRespond m e).size = c.size := by
  unfold coreRespond
  cases c.state <;> first | rfl | (cases e <;> simp [completeBlock])

@[simp] theorem Controller.corePhase_size (c : Controller) (p : Ports) : (c.corePhase p).size = c.size := by
  unfold corePhase
  cases c.reqPend && p.coreReqReady <;> cases p.coreRspValid && c.outst <;> simp [coreAccept]

/-- What the core can do in a cycle that begins with at most one request in flight (R40, R41 (a)): nothing, an acceptance,
or a response. -/
theorem corePhase_cases {c : Controller} (h : ¬ (c.reqPend = true ∧ c.outst = true)) (p : Ports) :
    (c.corePhase p = c ∧ (c.reqPend && p.coreReqReady) = false ∧ (p.coreRspValid && c.outst) = false) ∨
    (c.corePhase p = c.coreAccept ∧ c.reqPend = true ∧ p.coreReqReady = true ∧ c.outst = false) ∨
    (c.corePhase p = c.coreRespond (unpackBlock c.size.bytes p.coreRspBlock) p.coreRspErr ∧
      p.coreRspValid = true ∧ c.outst = true ∧ c.reqPend = false) := by
  unfold Controller.corePhase
  cases hp : c.reqPend <;> cases ho : c.outst <;> cases hr : p.coreReqReady <;> cases hv : p.coreRspValid <;> simp_all

/-! ## A cycle -/

/-- What a cycle drives on bus_rdata: the register read at its start, or 0 (R21, R40). -/
def cycleRdata (s : State) : Word :=
  if s.ports.busSel && !s.ports.busWe then busRead s.st s.ports.busAddr else 0

theorem readPhase_eq (s : State) : readPhase s = .next (s.setRdata (cycleRdata s)) := by
  unfold readPhase cycleRdata
  by_cases h : (s.ports.busSel && !s.ports.busWe) = true
  · rw [if_pos h, if_pos h]
    have hw : s.ports.busWe = false := by simp_all
    have hd : decodeBus (portsTxn s.ports) = .rd s.ports.busAddr := by simp [decodeBus, portsTxn, hw]
    rw [hd]
    rfl
  · rw [if_neg h, if_neg h]

/-- The instruction of the write presented in a cycle. -/
def cycleWrite (s : State) : Instr := decodeWrite s.ports.busAddr s.ports.busWdata

/-- The state after the events of a cycle, before its clock edge (R40). -/
def cycleState (s : State) : State :=
  if s.ports.rst then (s.setRdata (cycleRdata s)).setSt (Controller.resetOf s.st.size)
  else if s.ports.busSel && s.ports.busWe then
    execState (cycleWrite s) ((s.setRdata (cycleRdata s)).setSt (s.st.corePhase s.ports))
  else (s.setRdata (cycleRdata s)).setSt (s.st.corePhase s.ports)

/-- A step, in full (R40): it always answers a next state. -/
theorem step_eq (s : State) : step s = .next (cycleState s).endCycle := by
  have key : eventPhase (s.setRdata (cycleRdata s)) = .next (cycleState s) := by
    unfold cycleState
    show (if s.ports.rst then _ else
      if s.ports.busSel && s.ports.busWe then exec (decodeBus (portsTxn s.ports)) _ else _) = _
    by_cases hr : s.ports.rst = true
    · rw [if_pos hr, if_pos hr]; rfl
    · rw [if_neg hr, if_neg hr]
      by_cases hw : (s.ports.busSel && s.ports.busWe) = true
      · have hwe : s.ports.busWe = true := by simp_all
        have hd : decodeBus (portsTxn s.ports) = cycleWrite s := by simp [decodeBus, portsTxn, cycleWrite, hwe]
        rw [if_pos hw, if_pos hw, hd, exec_next]
        rfl
      · rw [if_neg hw, if_neg hw]
        rfl
  simp only [step, runCycle, readPhase_eq, andThen, key]

theorem step_next {s s' : State} (h : step s = .next s') : s' = (cycleState s).endCycle := by
  rw [step_eq] at h
  exact (Host.Outcome.next.inj h).symm

/-- What a cycle can do to the controller (R40): reset, or the core's part and then at most one host effect. -/
theorem step_cases {s s' : State} (h : step s = .next s') :
    (s.ports.rst = true ∧ s'.st = Controller.resetOf s.st.size) ∨
    (s.ports.rst = false ∧ HostEffect (s.st.corePhase s.ports) s'.st) := by
  have := step_next h
  subst this
  unfold cycleState
  by_cases hr : s.ports.rst = true
  · left; simp [hr]
  · right
    refine ⟨by simpa using hr, ?_⟩
    rw [if_neg hr]
    split
    · exact exec_hostEffect (cycleWrite s) ((s.setRdata (cycleRdata s)).setSt (s.st.corePhase s.ports))
    · exact .same

end Sys2Proof.Machine
end

