-- ==== Sys2Proof/Laws/Invariant.lean ====
section
/-! SUPPORT. The invariants of R41 under each thing that can happen to the controller: the host's effects, the core's steps and
reset. -/

namespace Sys2Proof.Machine

open Sys2Proof.Safety

theorem Controller.inFlight_eq_true_iff (c : Controller) :
    c.inFlight = true ↔ c.reqPend = true ∨ c.outst = true := by simp [inFlight]

theorem Controller.inFlight_eq_false_iff (c : Controller) :
    c.inFlight = false ↔ c.reqPend = false ∧ c.outst = false := by simp [inFlight]

/-- Outside ERROR and DRAIN no error is recorded. -/
theorem inv_err_false {c : Controller} (h : Inv c) (hd : c.deaf = false) : c.err = false := by
  cases he : c.err
  · rfl
  · have := h.err_where he; rw [hd] at this; cases this

/-- A request is in flight exactly in BUSY and DRAIN. -/
theorem inv_quiet {c : Controller} (h : Inv c) (hs : c.state ≠ .busy) (hs' : c.state ≠ .drain) :
    c.inFlight = false := by
  cases hf : c.inFlight
  · rfl
  · rcases h.in_flight_iff.mpr hf with h1 | h1 <;> contradiction

/-- DONE stands only in IDLE. -/
theorem inv_done_false {c : Controller} (h : Inv c) (hs : c.state ≠ .idle) : c.done = false := by
  cases hd : c.done
  · rfl
  · exact absurd (h.done_idle hd) hs

theorem inv_resetOf (z : BlockSize) : Inv (Controller.resetOf z) := by
  constructor <;> simp [Controller.resetOf, Controller.inFlight, Controller.deaf]
  constructor <;> simp

/-- Error entry and ABORT leave a state in which nothing of the message is left. -/
theorem inv_discard {c : Controller} (hs : Sized c) (hone : ¬ (c.reqPend = true ∧ c.outst = true))
    (hreq : c.inFlight = false → c.reqblk = zeroBytes c.size.bytes)
    {e : Bool} {code : ErrCode} (hcode : e = false ↔ code = .none) :
    Inv { c.discardWork with
      err := e, errcode := code
      state := if c.inFlight then .drain else if e then .error else .idle } where
  sized := ⟨by simp, hs.nonce, hs.din, by simp, by simp, hs.reqblk⟩
  one_request := hone
  in_flight_iff := by
    show _ ↔ c.inFlight = true
    cases c.inFlight <;> cases e <;> simp
  ready := by cases c.inFlight <;> cases e <;> simp
  busy := by cases c.inFlight <;> cases e <;> simp
  error := by cases c.inFlight <;> cases e <;> simp
  err_iff := hcode
  no_counter _ := rfl
  no_output _ := rfl
  err_where := by cases c.inFlight <;> cases e <;> simp [Controller.deaf]
  no_work _ := ⟨rfl, rfl⟩
  no_request := hreq
  request := by cases c.inFlight <;> cases e <;> simp
  cleared _ := ⟨rfl, rfl, rfl, rfl⟩
  hidden _ := rfl
  done_idle := by simp
  idle_remain _ := rfl

theorem inv_raiseError {c : Controller} (h : Inv c) {code : ErrCode} (hc : code ≠ .none) : Inv (c.raiseError code) := by
  cases he : c.err
  · rw [Controller.raiseError_of_no_err he]
    exact inv_discard (e := true) h.sized h.one_request h.no_request (by simp [hc])
  · rw [Controller.raiseError_of_err he]
    exact h

theorem inv_abortWork {c : Controller} (h : Inv c) : Inv c.abortWork :=
  inv_discard (e := false) h.sized h.one_request h.no_request (by simp)

/-- A counter seeded or changed in IDLE. -/
theorem inv_counter {c : Controller} (h : Inv c) (hi : c.state = .idle) {blk : Bytes} (hl : blk.length = c.size.bytes) :
    Inv { c with ctrblk := blk, ctrv := true } where
  sized := ⟨hl, h.sized.nonce, h.sized.din, h.sized.dout, h.sized.wbuf, h.sized.reqblk⟩
  one_request := h.one_request
  in_flight_iff := h.in_flight_iff
  ready h0 := ⟨(h.ready h0).1, rfl⟩
  busy h0 := ⟨rfl, (h.busy h0).2⟩
  error := h.error
  err_iff := h.err_iff
  no_counter h0 := by cases h0
  no_output := h.no_output
  err_where := h.err_where
  no_work := h.no_work
  no_request := h.no_request
  request h0 := by rw [show c.state = .busy from h0] at hi; cases hi
  cleared h0 := by
    rcases c.deaf_eq_true_iff.mp h0 with h1 | h1 <;> (rw [h1] at hi; cases hi)
  hidden := h.hidden
  done_idle := h.done_idle
  idle_remain := h.idle_remain

theorem remain_pos {r : BitVec 64} (h : r ≠ 0) : 0 < r.toNat := by
  rcases Nat.eq_zero_or_pos r.toNat with h0 | h0
  · exact absurd (BitVec.eq_of_toNat_eq (by simpa using h0)) h
  · exact h0

theorem inv_start {c : Controller} (h : Inv c) (hi : c.state = .idle) :
    Inv { c with
      ctrblk := initCounter c.size.bytes c.nonce, ctrv := true
      remain := c.msgLen
      dout := zeroBytes c.size.bytes, doutv := false
      done := if c.msgLen = 0 then true else false
      state := if c.msgLen = 0 then .idle else .ready } where
  sized := ⟨by simp, h.sized.nonce, h.sized.din, by simp, h.sized.wbuf, h.sized.reqblk⟩
  one_request := h.one_request
  in_flight_iff := by
    show _ ↔ c.inFlight = true
    rw [inv_quiet h (by simp [hi]) (by simp [hi])]
    dsimp only; split <;> simp
  ready := by
    dsimp only; split
    · simp
    · intro _; exact ⟨by assumption, rfl⟩
  busy := by dsimp only; split <;> simp
  error := by dsimp only; split <;> simp
  err_iff := h.err_iff
  no_counter h0 := by cases h0
  no_output _ := rfl
  err_where h0 := by
    rw [inv_err_false h (c.deaf_eq_false_iff.mpr (.inl hi))] at h0; cases h0
  no_work _ := h.no_work (by simp [hi])
  no_request := h.no_request
  request := by dsimp only; split <;> simp
  cleared := by simp only [Controller.deaf]; split <;> simp
  hidden _ := rfl
  done_idle := by dsimp only; split <;> simp
  idle_remain := by
    dsimp only; split
    · intro _; assumption
    · simp

theorem inv_runBlock {c : Controller} (h : Inv c) (hr : c.state = .ready) : Inv c.runBlock where
  sized := ⟨h.sized.ctrblk, h.sized.nonce, h.sized.din, by simp [Controller.runBlock], h.sized.din, h.sized.ctrblk⟩
  one_request := by
    have := (c.inFlight_eq_false_iff.mp (inv_quiet h (by simp [hr]) (by simp [hr]))).2
    simp [Controller.runBlock, this]
  in_flight_iff := by simp [Controller.runBlock, Controller.inFlight]
  ready := by simp [Controller.runBlock]
  busy _ := by
    obtain ⟨hrem, hv⟩ := h.ready hr
    have hp := remain_pos hrem
    have hB := c.size.bytes_pos
    exact ⟨hv, chunkLen_eq_min _ _, by simp [Controller.runBlock, chunkLen_eq_min, hp, hB],
      inv_err_false (c := c) h (c.deaf_eq_false_iff.mpr (.inr (.inl hr)))⟩
  error := by simp [Controller.runBlock]
  err_iff := h.err_iff
  no_counter h0 := h.no_counter h0
  no_output _ := rfl
  err_where h0 := by
    have := inv_err_false h (c.deaf_eq_false_iff.mpr (.inr (.inl hr)))
    rw [show c.err = true from h0] at this; cases this
  no_work := by simp [Controller.runBlock]
  no_request := by simp [Controller.runBlock, Controller.inFlight]
  request _ := rfl
  cleared := by simp [Controller.runBlock, Controller.deaf]
  hidden _ := rfl
  done_idle h0 := by
    have := inv_done_false h (by simp [hr])
    rw [show c.done = true from h0] at this; cases this
  idle_remain := by simp [Controller.runBlock]

theorem inv_staging {c : Controller} (h : Inv c) (inten : BitVec 3) (nl : BitVec 6) (ml : BitVec 64) {nonce din : Bytes}
    (hn : nonce.length = c.size.nonceBytes) (hd : din.length = c.size.bytes) :
    Inv { c with inten := inten, nonceLen := nl, msgLen := ml, nonce := nonce, din := din } where
  sized := ⟨h.sized.ctrblk, hn, hd, h.sized.dout, h.sized.wbuf, h.sized.reqblk⟩
  one_request := h.one_request
  in_flight_iff := h.in_flight_iff
  ready := h.ready
  busy := h.busy
  error := h.error
  err_iff := h.err_iff
  no_counter := h.no_counter
  no_output := h.no_output
  err_where := h.err_where
  no_work := h.no_work
  no_request := h.no_request
  request := h.request
  cleared := h.cleared
  hidden := h.hidden
  done_idle := h.done_idle
  idle_remain := h.idle_remain

/-- Every effect of the host keeps the invariants. -/
theorem inv_hostEffect {c d : Controller} (h : Inv c) (e : HostEffect c d) : Inv d := by
  cases e with
  | same => exact h
  | error code hc _ => exact inv_raiseError h hc
  | init hi _ => exact inv_counter h hi (by simp)
  | ctr v hi hv =>
    have := inv_counter h hi (blk := setCtr c.size.bytes c.ctrblk v) (by simp)
    rwa [← hv] at this
  | start hi _ _ => exact inv_start h hi
  | block hr => exact inv_runBlock h hr
  | abort => exact inv_abortWork h
  | staging i nl ml nonce din hn hd => exact inv_staging h i nl ml (hn h.sized.nonce) (hd h.sized.din)

theorem inv_coreAccept {c : Controller} (h : Inv c) (hp : c.reqPend = true) : Inv c.coreAccept where
  sized := ⟨h.sized.ctrblk, h.sized.nonce, h.sized.din, h.sized.dout, h.sized.wbuf, h.sized.reqblk⟩
  one_request := by simp [Controller.coreAccept]
  in_flight_iff := by
    have := h.in_flight_iff
    simpa [Controller.coreAccept, Controller.inFlight, hp] using this
  ready := h.ready
  busy := h.busy
  error := h.error
  err_iff := h.err_iff
  no_counter := h.no_counter
  no_output := h.no_output
  err_where := h.err_where
  no_work := h.no_work
  no_request := by simp [Controller.coreAccept, Controller.inFlight]
  request := h.request
  cleared := h.cleared
  hidden := h.hidden
  done_idle := h.done_idle
  idle_remain := h.idle_remain

/-- With an outstanding request none is pending (R41 (a)). -/
theorem inv_reqPend_false {c : Controller} (h : Inv c) (ho : c.outst = true) : c.reqPend = false := by
  cases hp : c.reqPend
  · rfl
  · exact absurd ⟨hp, ho⟩ h.one_request

theorem inv_completeBlock {c : Controller} (h : Inv c) (ho : c.outst = true) (hb : c.state = .busy) (m : Bytes) :
    Inv (c.completeBlock m) where
  sized := ⟨by simp [Controller.completeBlock], h.sized.nonce, h.sized.din, by simp [Controller.completeBlock],
    by simp [Controller.completeBlock], by simp [Controller.completeBlock]⟩
  one_request := by simp [Controller.completeBlock]
  in_flight_iff := by
    have hp := inv_reqPend_false h ho
    simp only [Controller.completeBlock, Controller.inFlight, hp]
    split <;> simp
  ready := by
    simp only [Controller.completeBlock]
    split
    · simp
    · intro _; exact ⟨by assumption, (h.busy hb).1⟩
  busy := by simp only [Controller.completeBlock]; split <;> simp
  error := by simp only [Controller.completeBlock]; split <;> simp
  err_iff := h.err_iff
  no_counter h0 := by
    have := (h.busy hb).1
    rw [show c.ctrv = false from h0] at this; cases this
  no_output h0 := by cases h0
  err_where h0 := by
    have := (h.busy hb).2.2.2
    rw [show c.err = true from h0] at this; cases this
  no_work _ := ⟨rfl, rfl⟩
  no_request _ := rfl
  request := by simp only [Controller.completeBlock]; split <;> simp
  cleared := by simp only [Controller.completeBlock, Controller.deaf]; split <;> simp
  hidden := by simp only [Controller.completeBlock]; split <;> simp
  done_idle := by
    have := inv_done_false h (by simp [hb])
    simp only [Controller.completeBlock]
    split <;> simp [this]
  idle_remain := by
    simp only [Controller.completeBlock]
    split
    · intro _; assumption
    · simp

theorem inv_coreRespond {c : Controller} (h : Inv c) (ho : c.outst = true) (m : Bytes) (e : Bool) :
    Inv (c.coreRespond m e) := by
  have hp := inv_reqPend_false h ho
  have hs : Sized c.endRequest :=
    ⟨h.sized.ctrblk, h.sized.nonce, h.sized.din, h.sized.dout, h.sized.wbuf, by simp⟩
  cases hst : c.state with
  | idle => simpa [Controller.coreRespond, hst] using h
  | ready => simpa [Controller.coreRespond, hst] using h
  | error => simpa [Controller.coreRespond, hst] using h
  | busy =>
    cases e with
    | false => simpa [Controller.coreRespond, hst] using inv_completeBlock h ho hst m
    | true =>
      have he : c.endRequest.err = false := (h.busy hst).2.2.2
      have := inv_discard (c := c.endRequest) (e := true) (code := .keySetup) hs (by simp) (by simp) (by simp)
      simpa [Controller.coreRespond, hst, Controller.raiseError_of_no_err he] using this
  | drain =>
    obtain ⟨hv, hdv, hdn, hrem⟩ := h.cleared (c.deaf_eq_true_iff.mpr (.inr hst))
    obtain ⟨hwb, hwl⟩ := h.no_work (by simp [hst])
    have key : ∀ s : CtlState, s = (if c.err then .error else .idle) → Inv { c.endRequest with state := s } := by
      intro s hs'
      have hcase : (c.err = true ∧ s = .error) ∨ (c.err = false ∧ s = .idle) := by
        cases he : c.err <;> simp [he] at hs' <;> simp [hs']
      exact {
        sized := ⟨hs.ctrblk, hs.nonce, hs.din, hs.dout, hs.wbuf, hs.reqblk⟩
        one_request := by simp
        in_flight_iff := by
          show (s = .busy ∨ s = .drain) ↔ c.endRequest.inFlight = true
          rw [Controller.endRequest_inFlight, hp]
          rcases hcase with ⟨_, rfl⟩ | ⟨_, rfl⟩ <;> simp
        ready := by rcases hcase with ⟨_, rfl⟩ | ⟨_, rfl⟩ <;> simp
        busy := by rcases hcase with ⟨_, rfl⟩ | ⟨_, rfl⟩ <;> simp
        error := by rcases hcase with ⟨h0, rfl⟩ | ⟨h0, rfl⟩ <;> simp [h0]
        err_iff := h.err_iff
        no_counter := h.no_counter
        no_output := h.no_output
        err_where := by rcases hcase with ⟨h0, rfl⟩ | ⟨h0, rfl⟩ <;> simp [h0, Controller.deaf]
        no_work := fun _ => ⟨hwb, hwl⟩
        no_request := fun _ => rfl
        request := by rcases hcase with ⟨_, rfl⟩ | ⟨_, rfl⟩ <;> simp
        cleared := fun _ => ⟨hv, hdv, hdn, hrem⟩
        hidden := fun _ => hdv
        done_idle := fun h0 => by rw [show c.done = true from h0] at hdn; cases hdn
        idle_remain := fun _ => hrem }
    have := key _ rfl
    simpa [Controller.coreRespond, hst] using this

/-- The core's part of a cycle keeps the invariants. -/
theorem inv_corePhase {c : Controller} (h : Inv c) (p : Ports) : Inv (c.corePhase p) := by
  unfold Controller.corePhase
  by_cases hr : (p.coreRspValid && c.outst) = true
  · have ho : c.outst = true := by simp_all
    have hp := inv_reqPend_false h ho
    simp only [hp, Bool.false_and, hr, if_true]
    exact inv_coreRespond h ho _ _
  · rw [if_neg hr]
    by_cases ha : (c.reqPend && p.coreReqReady) = true
    · rw [if_pos ha]
      exact inv_coreAccept h (by simp_all)
    · rw [if_neg ha]
      exact h

end Sys2Proof.Machine
end

