-- ==== Sys2Proof/Laws/Cycle.lean ====
section
/-! SUPPORT. What a cycle can do, with the command that did it: the inversion lemmas for the claims that name the write or
the response behind a change. -/

namespace Sys2Proof.Machine

open Sys2Proof.Safety

/-- The word of a command that is not illegal (R91). -/
theorem word_of_decodeCmd {w : Word} {m : Cmd} (h : decodeCmd w = m) :
    (m = .nop → w = 0) ∧ (m = .init → w = 1) ∧ (m = .inc → w = 2) ∧ (m = .start → w = 3) ∧ (m = .block → w = 4) ∧
      (m = .abort → w = 5) := by
  unfold decodeCmd at h
  have hw := w.isLt
  by_cases h0 : w.extractLsb' 4 28 = 0
  · rw [if_neg (by simpa using h0)] at h
    have a : w.toNat / 16 % 2 ^ 28 = 0 := by
      have := congrArg BitVec.toNat h0
      simpa [BitVec.extractLsb'_toNat, Nat.shiftRight_eq_div_pow] using this
    have b : (w.extractLsb' 0 4).toNat = w.toNat := by
      simp [BitVec.extractLsb'_toNat]; omega
    rw [b] at h
    have e : ∀ n : Nat, n < 2 ^ 32 → w.toNat = n → w = BitVec.ofNat 32 n := by
      intro n hn e; apply BitVec.eq_of_toNat_eq; simp; omega
    split at h <;> subst h <;> simp <;> exact e _ (by decide) (by assumption)
  · rw [if_pos h0] at h; subst h; simp

/-! ## A command -/

/-- What a write of `w` to CMD does to a controller `c`, with the word behind each effect (R210). -/
inductive CommandEffect (w : Word) (c d : Controller) : Prop where
  | same (h : d = c)
  | error (code : ErrCode) (hk : code ≠ .none) (hd : c.deaf = false) (h : d = c.raiseError code)
  | init (hw : w = 1) (hi : c.state = .idle) (hn : c.nonceLen.toNat = c.size.nonceBytes)
      (h : d = { c with ctrblk := initCounter c.size.bytes c.nonce, ctrv := true })
  | inc (hw : w = 2) (hi : c.state = .idle) (hv : c.ctrv = true) (h : d = c.runInc)
  | start (hw : w = 3) (hi : c.state = .idle) (hn : c.nonceLen.toNat = c.size.nonceBytes)
      (hm : c.msgLen.toNat ≤ Config.maxBlocks * c.size.bytes)
      (h : d = { c with
        ctrblk := initCounter c.size.bytes c.nonce, ctrv := true
        remain := c.msgLen
        dout := zeroBytes c.size.bytes, doutv := false
        done := if c.msgLen = 0 then true else false
        state := if c.msgLen = 0 then .idle else .ready })
  | block (hw : w = 4) (hr : c.state = .ready) (h : d = c.runBlock)
  | abort (hw : w = 5) (h : d = c.abortWork)

/-- The three outcomes of a guarded command (R210). -/
theorem guarded_cases (c : Controller) (ok : Bool) (run : Controller → Controller) :
    c.guarded ok run = c ∨ (c.deaf = false ∧ c.guarded ok run = c.raiseError .sequence) ∨
      (ok = true ∧ c.deaf = false ∧ c.guarded ok run = run c) := by
  unfold Controller.guarded
  cases hd : c.deaf
  · cases ok <;> simp
  · simp

theorem commandEffect_of_guarded {w : Word} {c : Controller} {ok : Bool} {run : Controller → Controller}
    (h : ok = true → c.deaf = false → CommandEffect w c (run c)) : CommandEffect w c (c.guarded ok run) := by
  rcases guarded_cases c ok run with e | ⟨hd, e⟩ | ⟨ho, hd, e⟩
  · exact .same e
  · exact .error .sequence (by decide) hd e
  · rw [e]; exact h ho hd

/-- A write to CMD has one of the effects. -/
theorem wrCmd_effect (w : Word) (s : State) : CommandEffect w s.st (execState (.wrCmd w) s).st := by
  rw [execState_wrCmd]
  have hw := word_of_decodeCmd (rfl : decodeCmd w = _)
  cases hm : decodeCmd w <;> rw [hm] at hw <;> simp at hw
  · refine commandEffect_of_guarded fun _ _ => .same rfl
  · refine commandEffect_of_guarded fun ho hd => ?_
    unfold Controller.runInit
    split
    · exact .error _ (by decide) hd rfl
    · exact .init hw (by simpa [legal] using ho) (by simp_all) rfl
  · refine commandEffect_of_guarded fun ho _ => ?_
    simp [legal] at ho
    exact .inc hw ho.1 ho.2 rfl
  · refine commandEffect_of_guarded fun ho hd => ?_
    unfold Controller.runStart
    split
    · exact .error _ (by decide) hd rfl
    · split
      · exact .error _ (by decide) hd rfl
      · split
        · exact .error _ (by decide) hd rfl
        · exact .start hw (by simpa [legal] using ho) (by simp_all) (by omega) rfl
  · exact commandEffect_of_guarded fun ho _ => .block hw (by simpa [legal] using ho) rfl
  · exact .abort hw rfl
  · show CommandEffect w s.st (if s.st.deaf then s.st else s.st.raiseError .illegalCmd)
    split
    · exact .same rfl
    · exact .error _ (by decide) (by simp_all) rfl

/-! ## The host's part of a cycle -/

/-- What the host's write in a cycle does to a controller `c`: nothing or a staging write, the effect of the CTR write, or
that of a command written to CMD. -/
inductive WriteEffect (p : Ports) (c d : Controller) : Prop where
  | staging (inten : BitVec 3) (nonceLen : BitVec 6) (msgLen : BitVec 64) (nonce din : Bytes)
      (h : d = { c with inten := inten, nonceLen := nonceLen, msgLen := msgLen, nonce := nonce, din := din })
  | ctr (v : Word) (hw : writes p 0x28 v) (hi : c.state = .idle) (hv : c.ctrv = true)
      (h : d = { c with ctrblk := setCtr c.size.bytes c.ctrblk v })
  | ctrError (v : Word) (hw : writes p 0x28 v) (hd : c.deaf = false) (h : d = c.raiseError .sequence)
  | command (w : Word) (hw : writes p 0x08 w) (h : CommandEffect w c d)

theorem writeEffect_same (p : Ports) (c : Controller) : WriteEffect p c c :=
  .staging c.inten c.nonceLen c.msgLen c.nonce c.din rfl

/-- What a cycle does to the controller (R40): reset, or the core's part and then the host's write. -/
theorem step_effect {s s' : State} (h : step s = .next s') :
    (s.ports.rst = true ∧ s'.st = Controller.resetOf s.st.size) ∨
    (s.ports.rst = false ∧ WriteEffect s.ports (s.st.corePhase s.ports) s'.st) := by
  have := step_next h
  subst this
  unfold cycleState
  by_cases hr : s.ports.rst = true
  · left; simp [hr]
  right
  refine ⟨by simpa using hr, ?_⟩
  rw [if_neg hr]
  split
  · rename_i hw
    simp at hw
    generalize ht : ((s.setRdata (cycleRdata s)).setSt (s.st.corePhase s.ports)) = t
    have htc : t.st = s.st.corePhase s.ports := by rw [← ht]; rfl
    rw [State.endCycle_st, ← htc]
    unfold cycleWrite decodeWrite
    by_cases h8 : s.ports.busAddr = 0x08
    · rw [if_pos h8]
      exact .command _ ⟨hw.1, hw.2, h8, rfl⟩ (wrCmd_effect _ _)
    · rw [if_neg h8]
      split_ifs with h10 h14 h18 h1c h28
      · exact .staging _ t.st.nonceLen t.st.msgLen t.st.nonce t.st.din rfl
      · exact .staging t.st.inten _ t.st.msgLen t.st.nonce t.st.din rfl
      · exact .staging t.st.inten t.st.nonceLen _ t.st.nonce t.st.din rfl
      · exact .staging t.st.inten t.st.nonceLen _ t.st.nonce t.st.din rfl
      · show WriteEffect s.ports t.st
          (t.st.guarded (legal .inc t.st) fun c => { c with ctrblk := setCtr c.size.bytes c.ctrblk s.ports.busWdata })
        rcases guarded_cases t.st (legal .inc t.st)
            (fun c => { c with ctrblk := setCtr c.size.bytes c.ctrblk s.ports.busWdata }) with e | ⟨hd, e⟩ | ⟨ho, _, e⟩
        · rw [e]; exact writeEffect_same _ _
        · exact .ctrError _ ⟨hw.1, hw.2, h28, rfl⟩ hd e
        · simp [legal] at ho
          exact .ctr _ ⟨hw.1, hw.2, h28, rfl⟩ ho.1 ho.2 e
      · simp only [execState, exec, execWrNonce]
        split
        · exact .staging t.st.inten t.st.nonceLen t.st.msgLen _ t.st.din rfl
        · exact writeEffect_same _ _
      · simp only [execState, exec, execWrDin]
        split
        · exact .staging t.st.inten t.st.nonceLen t.st.msgLen t.st.nonce _ rfl
        · exact writeEffect_same _ _
      · exact writeEffect_same _ _
  · exact writeEffect_same _ _

/-! ## The core's part of a cycle -/

/-- What the core does to a controller `c` in a cycle with ports `p`: nothing, an acceptance, or a response in BUSY
without and with an error, or in DRAIN (R40, R148, R150 to R152). -/
inductive CoreEffect (p : Ports) (c d : Controller) : Prop where
  | same (h : d = c) (hr : c.reqPend = true → p.coreReqReady = false) (hv : c.outst = true → p.coreRspValid = false)
  | accept (h : d = c.coreAccept) (hp : c.reqPend = true) (hr : p.coreReqReady = true) (ho : c.outst = false)
      (hs : c.state = .busy ∨ c.state = .drain)
  | complete (h : d = c.completeBlock (unpackBlock c.size.bytes p.coreRspBlock)) (he : p.coreRspErr = false)
      (hs : c.state = .busy) (hv : p.coreRspValid = true) (ho : c.outst = true) (hp : c.reqPend = false)
  | fail (h : d = c.endRequest.raiseError .keySetup) (he : p.coreRspErr = true)
      (hs : c.state = .busy) (hv : p.coreRspValid = true) (ho : c.outst = true) (hp : c.reqPend = false)
  | discard (h : d = { c.endRequest with state := if c.err then .error else .idle })
      (hs : c.state = .drain) (hv : p.coreRspValid = true) (ho : c.outst = true) (hp : c.reqPend = false)

/-- The core's part of a cycle has one of the effects, from every state with the invariants. -/
theorem corePhase_effect {c : Controller} (h : Inv c) (p : Ports) : CoreEffect p c (c.corePhase p) := by
  rcases corePhase_cases h.one_request p with ⟨h0, h1, h2⟩ | ⟨h0, h1, h2, h3⟩ | ⟨h0, h1, h2, h3⟩
  · refine .same h0 (fun a => ?_) (fun a => ?_)
    · simpa [a] using h1
    · simpa [a] using h2
  · exact .accept h0 h1 h2 h3 (h.in_flight_iff.mpr (by simp [Controller.inFlight, h1]))
  · rw [h0]
    rcases h.in_flight_iff.mpr (by simp [Controller.inFlight, h2]) with hs | hs
    · cases he : p.coreRspErr
      · exact .complete (by simp [Controller.coreRespond, hs]) he hs h1 h2 h3
      · exact .fail (by simp [Controller.coreRespond, hs]) he hs h1 h2 h3
    · exact .discard (by simp [Controller.coreRespond, hs]) hs h1 h2 h3

/-! ## What the effects do to a field -/

/-- REMAIN after a block: the subtraction of R150 does not wrap in a state with R41 (d), and is 0 when the chunk is all that
remains. -/
theorem remain_sub_wlen {c : Controller} (h : c.wlen = min c.size.bytes c.remain.toNat) :
    c.remain - BitVec.ofNat 64 c.wlen = BitVec.ofNat 64 (c.remain.toNat - c.wlen) ∧
    (c.remain - BitVec.ofNat 64 c.wlen = 0 ↔ c.remain.toNat = c.wlen) := by
  have h1 := c.remain.isLt
  have e : c.remain - BitVec.ofNat 64 c.wlen = BitVec.ofNat 64 (c.remain.toNat - c.wlen) := by
    apply BitVec.eq_of_toNat_eq
    simp [BitVec.toNat_sub]
    omega
  refine ⟨e, ?_⟩
  rw [e, ← BitVec.toNat_inj]
  simp
  omega

theorem take_zeroBytes {n m : Nat} (h : n ≤ m) : (zeroBytes m).take n = zeroBytes n := by
  simp [zeroBytes, List.take_replicate, h]

/-- The prefix of an initial counter block is the nonce (R111). -/
theorem take_initCounter {z : BlockSize} {nonce : Bytes} (h : nonce.length = z.nonceBytes) :
    (initCounter z.bytes nonce).take z.nonceBytes = nonce := by
  have e : (setCtr z.bytes nonce 1).take z.nonceBytes = nonce.take z.nonceBytes := take_setCtr (Nat.le_of_eq h.symm) 1
  rw [initCounter, e]
  exact List.take_of_length_le (Nat.le_of_eq h)

/-- The outcome of an instruction looks at the inputs only through core_key_err: with another list of inputs that has the
same level the controller and bus_rdata come out the same. -/
theorem execState_congr (i : Instr) {s t : State} (hst : s.st = t.st) (hk : s.ports.coreKeyErr = t.ports.coreKeyErr) :
    (execState i s).st = (execState i t).st ∧
      (s.busRdata = t.busRdata → (execState i s).busRdata = (execState i t).busRdata) := by
  have hcmd : ∀ (m : Cmd) (w : Word), (execState (m.instr w) s).st = (execState (m.instr w) t).st ∧
      (s.busRdata = t.busRdata → (execState (m.instr w) s).busRdata = (execState (m.instr w) t).busRdata) := by
    intro m w
    cases m <;>
      simp [Cmd.instr, execState, exec, execNop, execInit, execInc, execStart, execBlock, execAbort, execIllegal, hst, hk]
  cases i with
  | nop => exact hcmd .nop 0
  | init => exact hcmd .init 0
  | inc => exact hcmd .inc 0
  | start => exact hcmd .start 0
  | block => exact hcmd .block 0
  | abort => exact hcmd .abort 0
  | illegal w => exact hcmd .illegal w
  | wrCmd d => rw [execState_wrCmd, execState_wrCmd]; exact hcmd _ _
  | wrNonce k d =>
    simp only [execState, exec, execWrNonce, hst]
    split <;> simp [hst]
  | wrDin k d =>
    simp only [execState, exec, execWrDin, hst]
    split <;> simp [hst]
  | wrOther a d => exact ⟨hst, id⟩
  | rd a => simp [execState, exec, execRd, hst]
  | _ => simp [execState, exec, execWrInten, execWrNonceLen, execWrMsgLenLo, execWrMsgLenHi, execWrCtr, hst]

end Sys2Proof.Machine
end

