-- ==== Sys2Proof/Laws/PerInstr.lean ====
section
/-! SUPPORT. Statements made for every instruction, one lemma per constructor: encoding and decoding a well-formed
instruction gives it back as a frame (R90 to R95, R175). -/

namespace Sys2Proof.Laws.RoundTrip

/-- The frame of a well-formed instruction decodes to it. -/
def Statement (i : Instr) : Prop := i.wellFormed = true → decode (encode i) = i

theorem nop : Statement .nop := fun _ => rfl

theorem init : Statement .init := fun _ => rfl

theorem inc : Statement .inc := fun _ => rfl

theorem start : Statement .start := fun _ => rfl

theorem block : Statement .block := fun _ => rfl

theorem abort : Statement .abort := fun _ => rfl

/-- The word of an illegal instruction decodes to no command (R92). -/
theorem decodeCmd_of_illegalWord {w : Word} (h : illegalWord w = true) : decodeCmd w = .illegal := by
  unfold decodeCmd
  split
  · rfl
  · rename_i h0
    simp only [illegalWord, Bool.or_eq_true, decide_eq_true_eq, bne_iff_ne, ne_eq] at h
    have h6 : 6 ≤ (w.extractLsb' 0 4).toNat := h.resolve_right h0
    split <;> first | rfl | omega

theorem illegal (w : Word) : Statement (.illegal w) := by
  intro h
  simp only [Instr.wellFormed] at h
  simp [encode, decode, decodeCmd_of_illegalWord h, Cmd.instr]

theorem wrCmd (d : Word) : Statement (.wrCmd d) := fun _ => rfl

theorem wrInten (d : Word) : Statement (.wrInten d) := fun _ => rfl

theorem wrNonceLen (d : Word) : Statement (.wrNonceLen d) := fun _ => rfl

theorem wrMsgLenLo (d : Word) : Statement (.wrMsgLenLo d) := fun _ => rfl

theorem wrMsgLenHi (d : Word) : Statement (.wrMsgLenHi d) := fun _ => rfl

theorem wrCtr (d : Word) : Statement (.wrCtr d) := fun _ => rfl

/-- The addresses of the nonce window, in decodeWrite's order of tests (R62, R175). -/
theorem nonceWindow (k : Fin 8) : let a := windowAddr 0x40 k
    a ≠ 0x08 ∧ a ≠ 0x10 ∧ a ≠ 0x14 ∧ a ≠ 0x18 ∧ a ≠ 0x1C ∧ a ≠ 0x28 ∧ a &&& 0xE3 = 0x40 ∧ slotOf a = k := by
  revert k; decide

/-- The addresses of the input window, in decodeWrite's order of tests (R62, R175). -/
theorem dinWindow (k : Fin 8) : let a := windowAddr 0x80 k
    a ≠ 0x08 ∧ a ≠ 0x10 ∧ a ≠ 0x14 ∧ a ≠ 0x18 ∧ a ≠ 0x1C ∧ a ≠ 0x28 ∧ a &&& 0xE3 ≠ 0x40 ∧ a &&& 0xE3 = 0x80 ∧
      slotOf a = k := by
  revert k; decide

theorem wrNonce (k : Fin 8) (d : Word) : Statement (.wrNonce k d) := by
  intro _
  obtain ⟨h0, h1, h2, h3, h4, h5, h6, hk⟩ := nonceWindow k
  show decodeWrite (windowAddr 0x40 k) d = .wrNonce k d
  rw [decodeWrite, if_neg h0, if_neg h1, if_neg h2, if_neg h3, if_neg h4, if_neg h5, if_pos h6, hk]

theorem wrDin (k : Fin 8) (d : Word) : Statement (.wrDin k d) := by
  intro _
  obtain ⟨h0, h1, h2, h3, h4, h5, h6, h7, hk⟩ := dinWindow k
  show decodeWrite (windowAddr 0x80 k) d = .wrDin k d
  rw [decodeWrite, if_neg h0, if_neg h1, if_neg h2, if_neg h3, if_neg h4, if_neg h5, if_neg h6, if_pos h7, hk]

theorem wrOther (a : BitVec 8) (d : Word) : Statement (.wrOther a d) := by
  intro h
  simp only [Instr.wellFormed, namedWriteAddr, Bool.not_eq_true', Bool.or_eq_false_iff, beq_eq_false_iff_ne, ne_eq] at h
  obtain ⟨⟨⟨⟨⟨⟨⟨h0, h1⟩, h2⟩, h3⟩, h4⟩, h5⟩, h6⟩, h7⟩ := h
  show decodeWrite a d = .wrOther a d
  rw [decodeWrite, if_neg h0, if_neg h1, if_neg h2, if_neg h3, if_neg h4, if_neg h5, if_neg h6, if_neg h7]

theorem rd (a : BitVec 8) : Statement (.rd a) := fun _ => rfl

end Sys2Proof.Laws.RoundTrip
end

