-- ==== Sys2Proof/Tests/Slice0.lean ====
section
/-! SUPPORT. The model's own tests: well-formedness, decoding, one step at a time on the vectors of 95_test_vectors.md, and a
witness for every statement that has hypotheses. -/

namespace Sys2Proof.Tests

open Sys2Proof.Machine Sys2Proof.Safety

/-! ## Small states, all of the reference configuration, B = 16 -/

/-- Ports on which nothing is presented. -/
def quiet : Ports := ⟨false, false, false, 0, 0, false, false, 0, false, false⟩

/-- The host writes `d` to offset `a`. -/
def write (a : BitVec 8) (d : Word) : Ports := { quiet with busSel := true, busWe := true, busAddr := a, busWdata := d }

/-- The host reads offset `a`. -/
def read (a : BitVec 8) : Ports := { quiet with busSel := true, busAddr := a }

/-- The core answers with the block that stands, MSB first, in the top half of the vector of a 16-byte block. -/
def answer (v : BitVec 128) (e : Bool) : Ports := { quiet with coreRspValid := true, coreRspBlock := v.setWidth 256, coreRspErr := e }

/-- The state with controller `c` and the inputs `p` for the next cycle. -/
def st (c : Controller) (p : Ports := quiet) : State := ⟨c, 0, [p], 0⟩

/-- The controller after an instruction. -/
def after (i : Instr) (c : Controller) (p : Ports := quiet) : Option Controller :=
  match exec i (st c p) with
  | .next t => some t.st
  | _ => none

/-- The controller after a cycle with ports `p`. -/
def cycle (c : Controller) (p : Ports) : Option Controller :=
  match step (st c p) with
  | .next t => some t.st
  | _ => none

/-- bus_rdata of an outcome that is a next state. -/
def rdata (o : Host.Outcome State Fault Refusal) : Option Word :=
  match o with
  | .next t => some t.busRdata
  | _ => none

/-- STATUS after an instruction. -/
def status (o : Option Controller) : Option Word := o.map fun c => busRead c 0x0C

/-- The standard nonce N0 of 95_test_vectors.md. -/
def n0 : Bytes := [0x00, 0x01, 0x02, 0x03, 0x04, 0x05, 0x06, 0x07, 0x08, 0x09, 0x0A, 0x0B]

/-- The plaintext block of V29b. -/
def chunk : Bytes := [0x00, 0x11, 0x22, 0x33, 0x44, 0x55, 0x66, 0x77, 0x88, 0x99, 0xAA, 0xBB, 0xCC, 0xDD, 0xEE, 0xFF]

/-- M(L): N0 loaded, NONCE_LEN = 12, MSG_LEN = L. -/
def loaded (L : BitVec 64) : Controller :=
  { Controller.resetOf .b16 with nonce := n0, nonceLen := 12, msgLen := L, din := chunk }

/-- V1: N0 seeded by INIT. -/
def seeded : Controller := { loaded 20 with ctrblk := n0 ++ [0, 0, 0, 1], ctrv := true }

/-- V22: READY with 20 bytes remaining. -/
def ready20 : Controller := { seeded with state := .ready, remain := 20 }

/-- V29b: BUSY on the first block, the request pending. -/
def busy20 : Controller :=
  { ready20 with state := .busy, wbuf := chunk, wlen := 16, reqblk := n0 ++ [0, 0, 0, 1], reqPend := true }

/-- V29b with the request accepted. -/
def wait20 : Controller := { busy20 with reqPend := false, outst := true }

/-- BUSY on the last block, of 4 bytes, the request accepted. -/
def wait4 : Controller :=
  { seeded with
    state := .busy, remain := 4, ctrblk := n0 ++ [0, 0, 0, 2]
    wbuf := [0xDE, 0xAD, 0xBE, 0xEF] ++ List.replicate 12 0x33, wlen := 4
    reqblk := n0 ++ [0, 0, 0, 2], outst := true }

/-- A message completed: IDLE with DOUTV and DONE. -/
def complete : Controller :=
  { seeded with
    ctrblk := n0 ++ [0, 0, 0, 3], dout := [0xDE, 0xAC, 0xBC, 0xEC] ++ zeroBytes 12, doutv := true, done := true }

/-- ERROR with INVALID_NONCE_LENGTH. -/
def failed : Controller := { loaded 20 with state := .error, err := true, errcode := .invalidNonceLength, nonceLen := 11 }

/-- DRAIN after an error, the request accepted. -/
def drainErr : Controller :=
  { loaded 20 with state := .drain, err := true, errcode := .sequence, reqblk := n0 ++ [0, 0, 0, 1], outst := true }

/-- DRAIN after ABORT, the request still pending. -/
def drainOk : Controller := { loaded 20 with state := .drain, reqblk := n0 ++ [0, 0, 0, 1], reqPend := true }

/-! ## The small states have the invariants, and so their hypotheses can be met -/

theorem inv_loaded : Inv (loaded 20) := by constructor <;> first | decide | (constructor <;> decide)

theorem inv_loadedEmpty : Inv (loaded 0) := by constructor <;> first | decide | (constructor <;> decide)

theorem inv_loadedLongest : Inv (loaded (2 ^ 36)) := by constructor <;> first | decide | (constructor <;> decide)

theorem inv_loadedTooLong : Inv (loaded (2 ^ 36 + 1)) := by constructor <;> first | decide | (constructor <;> decide)

theorem inv_seeded : Inv seeded := by constructor <;> first | decide | (constructor <;> decide)

theorem inv_ready20 : Inv ready20 := by constructor <;> first | decide | (constructor <;> decide)

theorem inv_busy20 : Inv busy20 := by constructor <;> first | decide | (constructor <;> decide)

theorem inv_wait20 : Inv wait20 := by constructor <;> first | decide | (constructor <;> decide)

theorem inv_wait4 : Inv wait4 := by constructor <;> first | decide | (constructor <;> decide)

theorem inv_complete : Inv complete := by constructor <;> first | decide | (constructor <;> decide)

theorem inv_failed : Inv failed := by constructor <;> first | decide | (constructor <;> decide)

theorem inv_drainErr : Inv drainErr := by constructor <;> first | decide | (constructor <;> decide)

theorem inv_drainOk : Inv drainOk := by constructor <;> first | decide | (constructor <;> decide)

/-- IDLE with a wrong nonce length, one short and one long. -/
theorem inv_wrongLength : Inv { loaded 20 with nonceLen := 11 } ∧ Inv { loaded 20 with nonceLen := 13 } := by
  constructor <;> (constructor <;> first | decide | (constructor <;> decide))

/-! ## Well-formedness: each check, and an ill-formed term that it refuses -/

/-- R92: the word of a command is no illegal word; the first illegal opcode, and a reserved bit beside a legal one, are. -/
theorem test_wellFormed_illegal :
    (Instr.illegal 0).wellFormed = false ∧ (Instr.illegal 5).wellFormed = false ∧
    (Instr.illegal 6).wellFormed = true ∧ (Instr.illegal 0x10).wellFormed = true ∧
    (Instr.illegal 0x80000000).wellFormed = true := by decide

/-- WR_OTHER: an address with a row of its own is refused; a misaligned, a read-only and a reserved one are not. -/
theorem test_wellFormed_wrOther :
    (Instr.wrOther 0x08 1).wellFormed = false ∧ (Instr.wrOther 0x10 1).wellFormed = false ∧
    (Instr.wrOther 0x14 1).wellFormed = false ∧ (Instr.wrOther 0x18 1).wellFormed = false ∧
    (Instr.wrOther 0x1C 1).wellFormed = false ∧ (Instr.wrOther 0x28 1).wellFormed = false ∧
    (Instr.wrOther 0x40 1).wellFormed = false ∧ (Instr.wrOther 0x5C 1).wellFormed = false ∧
    (Instr.wrOther 0x80 1).wellFormed = false ∧ (Instr.wrOther 0x9C 1).wellFormed = false ∧
    (Instr.wrOther 0x81 1).wellFormed = true ∧ (Instr.wrOther 0x0C 1).wellFormed = true ∧
    (Instr.wrOther 0x2C 1).wellFormed = true ∧ (Instr.wrOther 0x60 1).wellFormed = true := by decide

/-! ## Decoding: words written out from the tables of R91 and R175, bit by bit -/

/-- The command words (R91): OPCODE in bits [3:0]. -/
theorem test_decode_commands :
    decode (.cmd 0b00000000000000000000000000000000) = .nop ∧
    decode (.cmd 0b00000000000000000000000000000001) = .init ∧
    decode (.cmd 0b00000000000000000000000000000010) = .inc ∧
    decode (.cmd 0b00000000000000000000000000000011) = .start ∧
    decode (.cmd 0b00000000000000000000000000000100) = .block ∧
    decode (.cmd 0b00000000000000000000000000000101) = .abort := by decide

/-- Illegal words (R92): OPCODE 6 and 15, and each end of the reserved field beside opcode 5. -/
theorem test_decode_illegal :
    decode (.cmd 0b00000000000000000000000000000110) = .illegal 6 ∧
    decode (.cmd 0b00000000000000000000000000001111) = .illegal 15 ∧
    decode (.cmd 0b00000000000000000000000000010101) = .illegal 0x15 ∧
    decode (.cmd 0b10000000000000000000000000000101) = .illegal 0x80000005 := by decide

/-- Bus writes to the single registers (R62, R175). -/
theorem test_decode_writes (d : Word) :
    decode (.bus ⟨true, 0b00001000, d⟩) = .wrCmd d ∧
    decode (.bus ⟨true, 0b00010000, d⟩) = .wrInten d ∧
    decode (.bus ⟨true, 0b00010100, d⟩) = .wrNonceLen d ∧
    decode (.bus ⟨true, 0b00011000, d⟩) = .wrMsgLenLo d ∧
    decode (.bus ⟨true, 0b00011100, d⟩) = .wrMsgLenHi d ∧
    decode (.bus ⟨true, 0b00101000, d⟩) = .wrCtr d := by
  refine ⟨rfl, rfl, rfl, rfl, rfl, rfl⟩

/-- Bus writes to the windows: the slot is addr[4:2] (R62, R175). -/
theorem test_decode_windows :
    decode (.bus ⟨true, 0b01000000, 1⟩) = .wrNonce 0 1 ∧ decode (.bus ⟨true, 0b01001000, 1⟩) = .wrNonce 2 1 ∧
    decode (.bus ⟨true, 0b01011100, 1⟩) = .wrNonce 7 1 ∧ decode (.bus ⟨true, 0b10000100, 1⟩) = .wrDin 1 1 ∧
    decode (.bus ⟨true, 0b10011100, 1⟩) = .wrDin 7 1 := by decide

/-- Bus writes elsewhere: misaligned, read-only, reserved (R67, R68); and a read (R176). -/
theorem test_decode_other :
    decode (.bus ⟨true, 0b10000001, 1⟩) = .wrOther 0x81 1 ∧ decode (.bus ⟨true, 0b00001100, 1⟩) = .wrOther 0x0C 1 ∧
    decode (.bus ⟨true, 0b00101100, 1⟩) = .wrOther 0x2C 1 ∧ decode (.bus ⟨true, 0b11111100, 1⟩) = .wrOther 0xFC 1 ∧
    decode (.bus ⟨false, 0b00001000, 1⟩) = .rd 0x08 := by decide

/-- The numbered bits of a frame: a 32-bit command word, a transaction whose data has no bits, one with its data, and
three that are no frame. -/
theorem test_decodeTableWord :
    decodeTableWord 32 0b00000000000000000000000000000011 = some .start ∧
    decodeTableWord 8 0b00000110 = some (.illegal 6) ∧
    decodeTableWord 16 0b0000000100101000 = some (.wrCtr 0) ∧
    decodeTableWord 48 0b000000000000000000000000000000000000001100101000 = some (.wrCtr 1) ∧
    decodeTableWord 16 0b0000000000001100 = some (.rd 0x0C) ∧
    decodeTableWord 24 0 = none ∧ decodeTableWord 16 0b0000001100101000 = none ∧ decodeTableWord 32 (2 ^ 32) = none := by
  decide

/-- A step on a state with a frame in the fetch place runs it, as the first one after reset: INC raises SEQUENCE (V9), and a
read of ID answers on bus_rdata (V70). -/
theorem test_withFetchWord :
    (∃ t, step (State.reset.withFetchWord 32 2) = .next t ∧ busRead t.st 0x0C = 0x00000543) ∧
    rdata (step (State.reset.withFetchWord 16 0)) = some 0x43545231 := ⟨⟨_, rfl, by decide⟩, by decide⟩

/-! ## One step: the counter family (95_test_vectors.md 2.1) -/

/-- V1. -/
theorem test_init_V1 : after .init (loaded 20) = some seeded := by decide

/-- V6. -/
theorem test_init_V6 : status (after .init { loaded 20 with nonceLen := 11 }) = some 0x00000143 := by decide

/-- V2 and V3: the increment, and its wrap with the nonce kept. -/
theorem test_inc_V2_V3 :
    (after .inc seeded).map (·.ctrblk) = some (n0 ++ [0, 0, 0, 2]) ∧
    (after .inc { seeded with ctrblk := n0 ++ [0xFF, 0xFF, 0xFF, 0xFF] }).map (·.ctrblk) = some (n0 ++ [0, 0, 0, 0]) := by
  decide

/-- V9. -/
theorem test_inc_V9 : status (after .inc (loaded 20)) = some 0x00000543 := by decide

/-- P1 line 10: the CTR write. -/
theorem test_wrCtr : (after (.wrCtr 0x01020304) seeded).map (·.ctrblk) = some (n0 ++ [1, 2, 3, 4]) := by decide

/-- V10 and V13. -/
theorem test_wrCtr_V10_V13 :
    status (after (.wrCtr 5) (loaded 20)) = some 0x00000543 ∧ status (after (.wrCtr 7) busy20) = some 0x00000544 := by
  decide

/-! ## One step: the message family (2.2) -/

/-- V22 and V20. -/
theorem test_start_V22_V20 :
    after .start (loaded 20) = some ready20 ∧ status (after .start (loaded 0)) = some 0x00000028 := by decide

/-- V24, V25, V27 and V28: the checks and their order. -/
theorem test_start_checks :
    status (after .start (loaded (2 ^ 36 + 1))) = some 0x00000343 ∧
    status (after .start (loaded 20) { quiet with coreKeyErr := true }) = some 0x00000243 ∧
    status (after .start { loaded (2 ^ 40) with nonceLen := 11 } { quiet with coreKeyErr := true }) = some 0x00000143 ∧
    status (after .start (loaded (2 ^ 40)) { quiet with coreKeyErr := true }) = some 0x00000343 := by decide

/-- V29b, and what the core sees. -/
theorem test_block_V29b :
    after .block ready20 = some busy20 ∧ busy20.coreReqBlock = 0x000102030405060708090A0B00000001 := by decide

/-- V36 and V35. -/
theorem test_block_V36_V35 :
    status (after .block busy20) = some 0x00000544 ∧ (after .block busy20).map (·.coreReqValid) = some true ∧
    status (after .block (loaded 20)) = some 0x00000543 := by decide

/-- V30: the response of the first block, and of the last one. -/
theorem test_response_V30 :
    (cycle wait20 (answer 0x000102030405060708090A0B00000001 false)).map
        (fun c => (busRead c 0xA0, busRead c 0xAC, busRead c 0x0C, busRead c 0x28, busRead c 0x20))
      = some (0x00102030, 0xCCDDEEFE, 0x00000019, 2, 4) ∧
    (cycle wait4 (answer 0x000102030405060708090A0B00000002 false)).map
        (fun c => (busRead c 0xA0, busRead c 0xAC, busRead c 0x0C, busRead c 0x28, busRead c 0x20))
      = some (0xDEACBCEC, 0, 0x00000038, 3, 0) := by decide

/-- V37 and V39: an error response, and a stray one. -/
theorem test_response_V37_V39 :
    status (cycle wait20 (answer 0 true)) = some 0x00000243 ∧ cycle ready20 (answer 0 true) = some ready20 := by decide

/-! ## The mixer (2.3) -/

/-- V40b, V40d and V40f. -/
theorem test_mix_V40 :
    mix 16 ([0xDE, 0xAD, 0xBE, 0xEF] ++ List.replicate 12 0x33) (n0 ++ [0, 0, 0, 2]) 4
      = [0xDE, 0xAC, 0xBC, 0xEC] ++ zeroBytes 12 ∧
    mix 16 (0xA5 :: List.replicate 15 0xFF) (0xFF :: List.replicate 15 0xFE) 1 = 0x5A :: zeroBytes 15 ∧
    mix 16 (List.replicate 16 0xF0) (zeroBytes 16) 15 = List.replicate 15 0xF0 ++ [0] := by decide

/-! ## One step: control, illegal words and errors (2.4, 2.5) -/

/-- V50. -/
theorem test_nop_V50 : after .nop ready20 = some ready20 := by decide

/-- V51: the nonce registers stay. -/
theorem test_abort_V51 :
    after .abort failed = some { loaded 20 with nonceLen := 11 } := by decide

/-- V52 and V53: ABORT while a request is in flight, and the response that is discarded. -/
theorem test_abort_V52_V53 :
    status (after .abort busy20) = some 0x00000004 ∧
    (after .abort busy20).map (·.coreReqValid) = some true ∧
    status (cycle { drainOk with reqPend := false, outst := true } (answer 0 true)) = some 0 := by decide

/-- V60, V66 and V63. -/
theorem test_illegal_V60_V66_V63 :
    status (after (.illegal 6) (loaded 20)) = some 0x00000443 ∧
    status (after (.illegal 0xF) busy20) = some 0x00000444 ∧
    status (after (.illegal 0x15) failed) = some 0x00000143 := by decide

/-- V61 and V62. -/
theorem test_wrCmd_V61_V62 :
    status (after (.wrCmd 0x10) (loaded 20)) = some 0x00000443 ∧
    status (after (.wrCmd 0xFFFFFFFF) (loaded 20)) = some 0x00000443 := by decide

/-- V63, V64: in ERROR only the word 5 acts. -/
theorem test_wrCmd_V63_V64 :
    after (.wrCmd 0x15) failed = some failed ∧ status (after (.wrCmd 5) failed) = some 0 ∧
    status (after (.wrCmd 3) (loaded 20)) = some 0x00000009 := by decide

/-! ## One step: register access (2.6) -/

/-- V78 and V8. -/
theorem test_wrInten_wrNonceLen_V78_V8 :
    (after (.wrInten 0xFFFFFFFF) (loaded 20)).map (busRead · 0x10) = some 0x00000007 ∧
    (after (.wrNonceLen 0xFFFFFFFF) (loaded 20)).map (busRead · 0x14) = some 0x0000003F := by decide

/-- V79: each half of MSG_LEN keeps the other. -/
theorem test_wrMsgLen_V79 :
    (after (.wrMsgLenHi 0x22222222) (loaded 0x11111111)).map (·.msgLen) = some 0x2222222211111111 ∧
    (after (.wrMsgLenLo 0x33333333) (loaded 0x2222222211111111)).map (·.msgLen) = some 0x2222222233333333 := by decide

/-- The nonce words, big-endian (R64), and NONCE3, which B = 16 has not. -/
theorem test_wrNonce :
    (after (.wrNonce 1 0xA1B2C3D4) (loaded 20)).map (·.nonce)
      = some [0x00, 0x01, 0x02, 0x03, 0xA1, 0xB2, 0xC3, 0xD4, 0x08, 0x09, 0x0A, 0x0B] ∧
    after (.wrNonce 3 0xA1B2C3D4) (loaded 20) = some (loaded 20) := by decide

/-- V75 and V77. -/
theorem test_wrDin_V75_V77 :
    (after (.wrDin 0 0x12345678) (loaded 20)).map (busRead · 0x80) = some 0x12345678 ∧
    (after (.wrDin 3 0x12345678) (loaded 20)).map (fun c => c.din.drop 11) = some [0xBB, 0x12, 0x34, 0x56, 0x78] ∧
    after (.wrDin 4 1) (loaded 20) = some (loaded 20) := by decide

/-- V74 and V80. -/
theorem test_wrOther_V74_V80 :
    after (.wrOther 0x81 0x12345678) ready20 = some ready20 ∧ after (.wrOther 0x0C 0xFFFFFFFF) ready20 = some ready20 ∧
    after (.wrOther 0x00 0) ready20 = some ready20 ∧ after (.wrOther 0xA0 1) ready20 = some ready20 := by decide

/-- V70 to V73 and V76. -/
theorem test_rd_V70_V76 :
    rdata (exec (.rd 0x00) (st ready20)) = some 0x43545231 ∧ after (.rd 0x00) ready20 = some ready20 ∧
    busRead ready20 0x04 = 0x00000C10 ∧ busRead ready20 0x08 = 0 ∧ busRead ready20 0x01 = 0 ∧ busRead ready20 0x2C = 0 ∧
    busRead ready20 0x4C = 0 ∧ busRead ready20 0xC0 = 0 := by decide

/-- Words of every window read big-endian, and the last word of CTRBLK is CTR (R64). -/
theorem test_rd_windows :
    busRead complete 0x44 = 0x04050607 ∧ busRead complete 0x60 = 0x00010203 ∧ busRead complete 0x6C = 3 ∧
    busRead complete 0x28 = 3 ∧ busRead complete 0x84 = 0x44556677 ∧ busRead complete 0xA0 = 0xDEACBCEC ∧
    busRead complete 0x70 = 0 ∧ busRead complete 0xB0 = 0 ∧ busRead complete 0x18 = 20 := by decide

/-! ## The interrupt, one cycle with several events, and the script notation (2.7, 2.8, 4) -/

/-- V90, V92 and V95. -/
theorem test_irq_V90_V92_V95 :
    (after .start { loaded 0 with inten := 2 }).map (·.irq) = some true ∧
    (after (.illegal 9) { loaded 0 with inten := 4 }).map (·.irq) = some true ∧
    (after .start { loaded 0 with inten := 1 }).map (·.irq) = some false ∧ complete.irq = false := by decide

/-- V100: the message completes, and then START runs, in one cycle. -/
theorem test_cycle_V100 :
    (cycle wait4 { answer 0 false with busSel := true, busWe := true, busAddr := 0x08, busWdata := 3 }).map
        (fun c => (busRead c 0x0C, busRead c 0x28, busRead c 0x20, busRead c 0xA0))
      = some (0x00000009, 1, 20, 0) := by decide

/-- V101 to V103. -/
theorem test_cycle_V101_V102_V103 :
    (cycle wait20 { answer 0 false with busSel := true, busWe := true, busAddr := 0x08, busWdata := 4 }).map
        (fun c => (busRead c 0x0C, busRead c 0xA0, c.coreReqBlock)) = some (0x0000000A, 0, 0x000102030405060708090A0B00000002) ∧
    status (cycle wait20 { answer 0 true with busSel := true, busWe := true, busAddr := 0x08, busWdata := 3 })
      = some 0x00000243 ∧
    status (cycle wait20 { answer 0 true with busSel := true, busWe := true, busAddr := 0x08, busWdata := 5 }) = some 0 := by
  decide

/-- V104, V105 and V113. -/
theorem test_cycle_V104_V105_V113 :
    cycle busy20 { write 0x08 3 with rst := true } = some (Controller.resetOf .b16) ∧
    cycle busy20 { answer 0 false with coreReqReady := true } = some wait20 ∧
    rdata (step (st ready20 (read 0x14))) = some 12 := by decide

/-- P2 line 1 and P3 line 10: what the pseudo-instructions present (R101). -/
theorem test_pseudo :
    ((Pseudo.ldNonce [0x00010203, 0x04050607, 0x08090A0B]).expand .b16).filterMap (·.txn)
      = [⟨true, 0x14, 12⟩, ⟨true, 0x40, 0x00010203⟩, ⟨true, 0x44, 0x04050607⟩, ⟨true, 0x48, 0x08090A0B⟩] ∧
    ((Pseudo.wr64 0x1000000001).expand .b16).filterMap (·.txn) = [⟨true, 0x18, 1⟩, ⟨true, 0x1C, 0x10⟩] ∧
    (ScriptItem.poll .status 0x7 0x2 false).after 0x0000000A = .again ∧
    (ScriptItem.poll .status 0x7 0x2 false).after 0x00000019 = .goOn := by decide

/-! ## Witnesses: for every statement with hypotheses, concrete states and operands that meet them, clause by clause -/

theorem witness_DecodeOfEncodeIsIdentity :
    Instr.start.wellFormed = true ∧ (Instr.illegal 6).wellFormed = true ∧ (Instr.wrOther 0xFC 1).wellFormed = true ∧
    (Instr.wrDin 7 0xFFFFFFFF).wellFormed = true := by decide

theorem witness_IllegalWordsRaiseOrAreIgnored :
    decodeCmd 6 = .illegal ∧ decodeCmd 0x10 = .illegal ∧ decodeCmd 5 ≠ .illegal ∧
    (Inv (loaded 20) ∧ (loaded 20).state = .idle) ∧ (Inv ready20 ∧ ready20.state = .ready) ∧
    (Inv busy20 ∧ busy20.state = .busy) ∧ (Inv failed ∧ failed.state = .error) ∧ (Inv drainErr ∧ drainErr.state = .drain) :=
  ⟨by decide, by decide, by decide, ⟨inv_loaded, rfl⟩, ⟨inv_ready20, rfl⟩, ⟨inv_busy20, rfl⟩, ⟨inv_failed, rfl⟩,
    ⟨inv_drainErr, rfl⟩⟩

theorem witness_StepRunsThePresentedInstruction :
    decodeTableWord 32 5 = some .abort ∧ decodeTableWord 16 0x128 = some (.wrCtr 0) ∧
    decodeTableWord 48 (2 ^ 41 - 1) = some (.wrOther 0xFF 0xFFFFFFFF) ∧ decodeTableWord 16 0x28 = some (.rd 0x28) := by
  decide

theorem witness_StepKeepsInvariants :
    (∃ s', Inv ready20 ∧ step (st ready20 (write 0x08 4)) = .next s' ∧ s'.st = busy20) ∧
    (∃ s', Inv wait4 ∧ step (st wait4 (answer 0 false)) = .next s' ∧ s'.st.done = true) :=
  ⟨⟨_, inv_ready20, rfl, by decide⟩, ⟨_, inv_wait4, rfl, by decide⟩⟩

theorem witness_ResetCycleSetsEveryField :
    (st busy20 { read 0x0C with rst := true }).ports.rst = true ∧
    (st busy20 { read 0x0C with rst := true }).ports.busSel = true ∧
    (st busy20 { read 0x0C with rst := true }).ports.busWe = false := by decide

theorem witness_InitSeedsCounterOrRaises :
    (Inv (loaded 20) ∧ (loaded 20).state = .idle ∧ (loaded 20).nonceLen.toNat = (loaded 20).size.bytes - 4) ∧
    (Inv { loaded 20 with nonceLen := 11 } ∧ Inv { loaded 20 with nonceLen := 13 } ∧ 11 ≠ (loaded 20).size.bytes - 4 ∧
      13 ≠ (loaded 20).size.bytes - 4) ∧
    (Inv ready20 ∧ ready20.state = .ready) ∧ (Inv busy20 ∧ busy20.state = .busy) :=
  ⟨⟨inv_loaded, rfl, rfl⟩, ⟨inv_wrongLength.1, inv_wrongLength.2, by decide, by decide⟩, ⟨inv_ready20, rfl⟩,
    ⟨inv_busy20, rfl⟩⟩

theorem witness_InitCounterIsNonceThenOne :
    n0.length = BlockSize.bytes .b16 - 4 ∧ (zeroBytes 4).length = BlockSize.bytes .b8 - 4 ∧
    (zeroBytes 28).length = BlockSize.bytes .b32 - 4 := by decide

theorem witness_IncIncrementsOrRaises :
    (Inv seeded ∧ seeded.state = .idle ∧ seeded.ctrv = true) ∧
    (Inv (loaded 20) ∧ (loaded 20).state = .idle ∧ (loaded 20).ctrv = false) ∧
    (Inv ready20 ∧ ready20.state = .ready) ∧ (Inv busy20 ∧ busy20.state = .busy) :=
  ⟨⟨inv_seeded, rfl, rfl⟩, ⟨inv_loaded, rfl, rfl⟩, ⟨inv_ready20, rfl⟩, ⟨inv_busy20, rfl⟩⟩

theorem witness_IncCounterAddsOneModulo :
    (n0 ++ [0xFF, 0xFF, 0xFF, 0xFF]).length = BlockSize.bytes .b16 ∧
    ctrOf 16 (n0 ++ [0xFF, 0xFF, 0xFF, 0xFF]) = 0xFFFFFFFF := by decide

theorem witness_IteratedIncrementAddsCount :
    (n0 ++ [0xFF, 0xFF, 0xFF, 0xFE]).length = BlockSize.bytes .b16 ∧ n0.length = BlockSize.bytes .b16 - 4 := by decide

theorem witness_CtrWriteLoadsOrRaises :
    (Inv seeded ∧ seeded.state = .idle ∧ seeded.ctrv = true) ∧
    (Inv (loaded 20) ∧ (loaded 20).state = .idle ∧ (loaded 20).ctrv = false) ∧
    (Inv ready20 ∧ ready20.state = .ready) ∧ (Inv busy20 ∧ busy20.state = .busy) ∧
    (Inv failed ∧ failed.state = .error) ∧ (Inv drainOk ∧ drainOk.state = .drain) :=
  ⟨⟨inv_seeded, rfl, rfl⟩, ⟨inv_loaded, rfl, rfl⟩, ⟨inv_ready20, rfl⟩, ⟨inv_busy20, rfl⟩, ⟨inv_failed, rfl⟩,
    ⟨inv_drainOk, rfl⟩⟩

/-- The clause about the last word, and the three states in which the counter reads 0. -/
theorem witness_CounterRegistersRead :
    (3 : Fin 8).val + 1 = seeded.size.bytes / 4 ∧ (4 : Fin 8).val ≥ seeded.size.bytes / 4 ∧
    seeded.err = false ∧ (∃ d, d = seeded.raiseError .sequence ∧ d.err = true) ∧ seeded.abortWork ≠ seeded :=
  ⟨rfl, by decide, rfl, ⟨_, rfl, rfl⟩, by decide⟩

/-- Each kind of step that changes the prefix. -/
theorem witness_OnlyFiveStepsWriteThePrefix :
    (∃ s', Inv seeded ∧ step (st seeded { quiet with rst := true }) = .next s' ∧
      counterPrefix s'.st ≠ counterPrefix seeded) ∧
    (∃ s', Inv seeded ∧ step (st seeded (write 0x08 4)) = .next s' ∧ counterPrefix s'.st ≠ counterPrefix seeded) ∧
    (∃ s', Inv seeded ∧ step (st seeded (write 0x08 5)) = .next s' ∧ counterPrefix s'.st ≠ counterPrefix seeded) ∧
    (∃ s', Inv (loaded 20) ∧ step (st (loaded 20) (write 0x08 1)) = .next s' ∧
      counterPrefix s'.st ≠ counterPrefix (loaded 20)) ∧
    (∃ s', Inv (loaded 20) ∧ step (st (loaded 20) (write 0x08 3)) = .next s' ∧
      counterPrefix s'.st ≠ counterPrefix (loaded 20)) :=
  ⟨⟨_, inv_seeded, rfl, by decide⟩, ⟨_, inv_seeded, rfl, by decide⟩, ⟨_, inv_seeded, rfl, by decide⟩,
    ⟨_, inv_loaded, rfl, by decide⟩, ⟨_, inv_loaded, rfl, by decide⟩⟩

/-- MixerXorsBelowLengthAndClearsRest, MixerIsInvolution and MixerAgreesWithPaddedXor: lengths 0, B - 1 and B. -/
theorem witness_Mixer :
    (0 ≤ 16 ∧ 15 ≤ 16 ∧ 16 ≤ 16) ∧ chunk.length = 16 ∧ (n0 ++ [0, 0, 0, 1]).length = 16 ∧
    (([] : Bytes).length ≤ 16 ∧ chunk.take ([] : Bytes).length = []) ∧ chunk.take chunk.length = chunk ∧
    chunk.take [0x00, 0x11].length = [0x00, 0x11] := by decide

theorem witness_MixerReadsOnlyTheChunk :
    4 ≤ 16 ∧ (∀ j, j < 2 → byteAt chunk j = byteAt [0x00, 0x11] j) ∧ (∀ j, j < 2 → byteAt n0 j = byteAt [0x00, 0x01] j) := by
  decide

theorem witness_StartBeginsMessageOrRaises :
    (Inv { loaded 20 with nonceLen := 11 } ∧ Inv { loaded 20 with nonceLen := 13 }) ∧
    (Inv (loaded (2 ^ 36 + 1)) ∧ (loaded (2 ^ 36 + 1)).state = .idle ∧
      (loaded (2 ^ 36 + 1)).msgLen.toNat > 2 ^ 32 * (loaded (2 ^ 36 + 1)).size.bytes) ∧
    (Inv (loaded (2 ^ 36)) ∧ (loaded (2 ^ 36)).nonceLen.toNat = (loaded (2 ^ 36)).size.bytes - 4 ∧
      (loaded (2 ^ 36)).msgLen.toNat ≤ 2 ^ 32 * (loaded (2 ^ 36)).size.bytes) ∧
    (st (loaded (2 ^ 36)) { quiet with coreKeyErr := true }).ports.coreKeyErr = true ∧
    (st (loaded (2 ^ 36))).ports.coreKeyErr = false ∧
    (Inv ready20 ∧ ready20.state = .ready) ∧ (Inv busy20 ∧ busy20.state = .busy) :=
  ⟨inv_wrongLength, ⟨inv_loadedTooLong, rfl, by decide⟩, ⟨inv_loadedLongest, rfl, by decide⟩, rfl, rfl,
    ⟨inv_ready20, rfl⟩, ⟨inv_busy20, rfl⟩⟩

theorem witness_BlockCountLimit :
    Inv (loaded (2 ^ 36 + 1)) ∧ ceilDiv (2 ^ 36 + 1) 16 > 2 ^ 32 ∧ Inv (loaded (2 ^ 36)) ∧ ¬ ceilDiv (2 ^ 36) 16 > 2 ^ 32 ∧
    (loaded (2 ^ 36)).state = .idle ∧ (loaded (2 ^ 36)).nonceLen.toNat = (loaded (2 ^ 36)).size.bytes - 4 :=
  ⟨inv_loadedTooLong, by decide, inv_loadedLongest, by decide, rfl, rfl⟩

theorem witness_EmptyMessageCompletesAtOnce :
    Inv (loaded 0) ∧ (loaded 0).state = .idle ∧ (loaded 0).nonceLen.toNat = (loaded 0).size.bytes - 4 ∧
    (st (loaded 0)).ports.coreKeyErr = false ∧ (loaded 0).msgLen = 0 := ⟨inv_loadedEmpty, rfl, rfl, rfl, rfl⟩

theorem witness_BlockIssuesRequestOrRaises :
    (Inv ready20 ∧ ready20.state = .ready) ∧ (Inv (loaded 20) ∧ (loaded 20).state = .idle) ∧
    (Inv busy20 ∧ busy20.state = .busy) := ⟨⟨inv_ready20, rfl⟩, ⟨inv_loaded, rfl⟩, ⟨inv_busy20, rfl⟩⟩

/-- A request that waits while the host aborts, one that is accepted, and one that is outstanding. -/
theorem witness_PresentedRequestIsStable :
    (∃ s', Inv busy20 ∧ step (st busy20 (write 0x08 5)) = .next s' ∧ busy20.reqPend = true ∧ s'.st.reqPend = true) ∧
    (∃ s', Inv busy20 ∧ step (st busy20 { quiet with coreReqReady := true }) = .next s' ∧ busy20.reqPend = true ∧
      s'.st.outst = true) ∧
    (∃ s', Inv wait20 ∧ step (st wait20 (write 0x08 5)) = .next s' ∧ wait20.outst = true ∧ s'.st.outst = true) :=
  ⟨⟨_, inv_busy20, rfl, rfl, by decide⟩, ⟨_, inv_busy20, rfl, rfl, by decide⟩, ⟨_, inv_wait20, rfl, rfl, by decide⟩⟩

theorem witness_HandshakeAcceptsRequest :
    let s := st busy20 { quiet with coreReqReady := true }
    s.ports.rst = false ∧ s.ports.busSel = false ∧ s.ports.coreRspValid = false ∧ s.st.reqPend = true ∧
      s.ports.coreReqReady = true := by decide

theorem witness_ResponseCompletesBlockOrRaises :
    (Inv wait20 ∧ wait20.state = .busy ∧ responseTaken (st wait20 (answer 1 false)) ∧ wait20.remain.toNat ≠ wait20.wlen) ∧
    (Inv wait4 ∧ wait4.state = .busy ∧ responseTaken (st wait4 (answer 1 false)) ∧ wait4.remain.toNat = wait4.wlen) ∧
    (responseTaken (st wait4 (answer 1 true)) ∧ (st wait4 (answer 1 true)).ports.coreRspErr = true) ∧
    (answer 1 true).rst = false ∧ (answer 1 true).busSel = false :=
  ⟨⟨inv_wait20, rfl, ⟨rfl, rfl⟩, by decide⟩, ⟨inv_wait4, rfl, ⟨rfl, rfl⟩, by decide⟩, ⟨⟨rfl, rfl⟩, rfl⟩, rfl, rfl⟩

theorem inv_drainOkAccepted : Inv { drainOk with reqPend := false, outst := true } := by
  constructor <;> first | decide | (constructor <;> decide)

theorem witness_ResponseInDrainIsDiscarded :
    (Inv drainErr ∧ drainErr.state = .drain ∧ responseTaken (st drainErr (answer 1 true)) ∧ drainErr.err = true) ∧
    (Inv { drainOk with reqPend := false, outst := true } ∧
      responseTaken (st { drainOk with reqPend := false, outst := true } (answer 1 false))) ∧
    (answer 1 true).rst = false ∧ (answer 1 true).busSel = false :=
  ⟨⟨inv_drainErr, rfl, ⟨rfl, rfl⟩, rfl⟩, ⟨inv_drainOkAccepted, ⟨rfl, rfl⟩⟩, rfl, rfl⟩

theorem witness_StrayResponseIsIgnored :
    (st busy20 (answer 1 true)).inputs = answer 1 true :: [] ∧ busy20.outst = false ∧ ready20.outst = false :=
  ⟨rfl, rfl, rfl⟩

theorem witness_AbortClearsErrorAndWork : (st drainOk).st.state = .drain ∧ (st drainOk).st.err = false := ⟨rfl, rfl⟩

theorem witness_OnlyAbortActsInErrorAndDrain :
    failed.state = .error ∧ drainErr.state = .drain ∧ (0x15 : Word) ≠ 0x00000005 ∧ (4 : Word) ≠ 0x00000005 := by decide

theorem witness_LegalityTableRaisesSequence :
    (Inv (loaded 20) ∧ (loaded 20).state = .idle ∧ (loaded 20).ctrv = false ∧ (loaded 20).state ≠ .ready) ∧
    (Inv ready20 ∧ ready20.state = .ready ∧ ready20.state ≠ .idle) ∧ (Inv busy20 ∧ busy20.state = .busy) ∧
    (∃ t, exec .abort (st busy20) = .next t) ∧ (∃ t, exec .nop (st busy20) = .next t) :=
  ⟨⟨inv_loaded, rfl, rfl, by decide⟩, ⟨inv_ready20, rfl, by decide⟩, ⟨inv_busy20, rfl⟩, ⟨_, rfl⟩, ⟨_, rfl⟩⟩

theorem witness_BusReadDispatch :
    Inv ready20 ∧ ready20.doutv = false ∧ 0xA0 ≤ (0xA0 : BitVec 8).toNat ∧ (0xBC : BitVec 8).toNat < 0xC0 :=
  ⟨inv_ready20, rfl, by decide, by decide⟩

theorem witness_IgnoredAccesses :
    (0x81 : BitVec 8).toNat % 4 ≠ 0 ∧ (0x2C ≤ (0x2C : BitVec 8).toNat ∧ (0x3F : BitVec 8).toNat < 0x40) ∧
    0x40 + (BlockSize.bytes .b16 - 4) ≤ (0x4C : BitVec 8).toNat ∧ 0x80 + BlockSize.bytes .b16 ≤ (0x90 : BitVec 8).toNat ∧
    0xA0 + BlockSize.bytes .b16 ≤ (0xC0 : BitVec 8).toNat ∧ (0x10 : Word).toNat / 16 ≠ 0 ∧
    (regAt 0x4C = some (.nonce 3) ∧ Reg.access .b16 (.nonce 3) = .reserved) ∧
    (regAt 0x90 = some (.din 4) ∧ Reg.access .b16 (.din 4) = .reserved) ∧
    (regAt 0x0C = some .status ∧ Reg.access .b16 .status = .ro) := by decide

theorem witness_ReadsAndStagingWritesAreIdempotent :
    ∃ (i : Instr) (k : Fin 8) (d : Word), (i = .rd 0xA0 ∨ i = .wrDin k d) ∧ i = .wrDin 3 0x12345678 :=
  ⟨.wrDin 3 0x12345678, 3, 0x12345678, .inr rfl, rfl⟩

theorem witness_StagingWritesReadBack :
    Inv (loaded 20) ∧ (2 : Fin 8).val < (loaded 20).size.nw ∧ ¬ (3 : Fin 8).val < (loaded 20).size.nw ∧
    (3 : Fin 8).val < (loaded 20).size.bytes / 4 ∧ ¬ (4 : Fin 8).val < (loaded 20).size.bytes / 4 :=
  ⟨inv_loaded, by decide, by decide, by decide, by decide⟩

theorem witness_IdAndParamAreConstant : (st ready20).st.size = .b16 := rfl

theorem witness_AddressMapIsUnambiguous :
    regAt 0x28 = some .ctr ∧ regAt 0xBC = some (.dout 7) ∧ hostSelect (Config.base + 255) = some 0xFF :=
  ⟨by decide, by decide, by simp [hostSelect]⟩

theorem witness_ErrorEntryRecordsAndClears : failed.err = true ∧ busy20.err = false ∧ ready20.err = false := by decide

theorem witness_FirstErrorInOrderIsRaised :
    (Inv (loaded (2 ^ 36 + 1)) ∧ (loaded (2 ^ 36 + 1)).state = .idle) ∧ (Inv ready20 ∧ ready20.state = .ready) ∧
    (Inv busy20 ∧ busy20.state = .busy) := ⟨⟨inv_loadedTooLong, rfl⟩, ⟨inv_ready20, rfl⟩, ⟨inv_busy20, rfl⟩⟩

/-- ERROR left by ABORT and by reset; ABORT in DRAIN. -/
theorem witness_OnlyAbortOrResetLeavesError :
    (∃ s', Inv failed ∧ failed.state = .error ∧ step (st failed (write 0x08 5)) = .next s' ∧ s'.st.state ≠ .error) ∧
    (∃ s', step (st failed { quiet with rst := true }) = .next s' ∧ s'.st.state ≠ .error) ∧
    (∃ t, Inv drainErr ∧ exec .abort (st drainErr) = .next t ∧ drainErr.state = .drain) :=
  ⟨⟨_, inv_failed, rfl, rfl, by decide⟩, ⟨_, rfl, by decide⟩, ⟨_, inv_drainErr, rfl, rfl⟩⟩

/-- While the drain ends, and while the host issues another command. -/
theorem witness_FirstErrorStays :
    (∃ s', Inv drainErr ∧ drainErr.err = true ∧ step (st drainErr (answer 1 false)) = .next s' ∧
      ¬ writes (answer 1 false) 0x08 5) ∧
    (∃ s', Inv failed ∧ failed.err = true ∧ step (st failed (write 0x08 3)) = .next s' ∧
      ¬ writes (write 0x08 3) 0x08 5) :=
  ⟨⟨_, inv_drainErr, rfl, rfl, by unfold writes; decide⟩, ⟨_, inv_failed, rfl, rfl, by unfold writes; decide⟩⟩

theorem witness_CounterValidFlagChanges :
    (∃ s', Inv (loaded 20) ∧ step (st (loaded 20) (write 0x08 1)) = .next s' ∧ (loaded 20).ctrv = false ∧
      s'.st.ctrv = true) ∧
    (∃ s', Inv seeded ∧ step (st seeded (write 0x08 4)) = .next s' ∧ seeded.ctrv = true ∧ s'.st.ctrv = false) :=
  ⟨⟨_, inv_loaded, rfl, rfl, by decide⟩, ⟨_, inv_seeded, rfl, rfl, by decide⟩⟩

theorem witness_OutputFlagsChange :
    (∃ s', Inv wait4 ∧ step (st wait4 (answer 1 false)) = .next s' ∧ wait4.doutv = false ∧ s'.st.doutv = true ∧
      wait4.done = false ∧ s'.st.done = true) ∧
    (∃ s', Inv (loaded 0) ∧ step (st (loaded 0) (write 0x08 3)) = .next s' ∧ (loaded 0).done = false ∧
      s'.st.done = true) ∧
    (∃ s', Inv complete ∧ step (st complete (write 0x08 3)) = .next s' ∧ complete.doutv = true ∧ s'.st.doutv = false ∧
      complete.done = true ∧ s'.st.done = false) :=
  ⟨⟨_, inv_wait4, rfl, rfl, by decide, rfl, by decide⟩, ⟨_, inv_loadedEmpty, rfl, rfl, by decide⟩,
    ⟨_, inv_complete, rfl, rfl, by decide, rfl, by decide⟩⟩

/-- V100 to V103: each clause. -/
theorem witness_ResponseActsBeforeWriteInOneCycle :
    let p (e : Bool) (w : Word) : Ports := { answer 1 e with busSel := true, busWe := true, busAddr := 0x08, busWdata := w }
    (Inv wait20 ∧ wait20.state = .busy ∧ responseTaken (st wait20 (p true 3)) ∧ writes (p true 3) 0x08 3 ∧
      ∃ s', step (st wait20 (p true 3)) = .next s') ∧
    (writes (p true 5) 0x08 5 ∧ ∃ s', step (st wait20 (p true 5)) = .next s') ∧
    (Inv wait4 ∧ responseTaken (st wait4 (p false 3)) ∧ wait4.remain.toNat = wait4.wlen ∧
      wait4.nonceLen.toNat = wait4.size.bytes - 4 ∧ wait4.msgLen.toNat ≤ 2 ^ 32 * wait4.size.bytes ∧
      (p false 3).coreKeyErr = false ∧ ∃ s', step (st wait4 (p false 3)) = .next s') ∧
    (responseTaken (st wait20 (p false 4)) ∧ wait20.remain.toNat ≠ wait20.wlen ∧
      ∃ s', step (st wait20 (p false 4)) = .next s') :=
  ⟨⟨inv_wait20, rfl, ⟨rfl, rfl⟩, ⟨rfl, rfl, rfl, rfl⟩, ⟨_, rfl⟩⟩, ⟨⟨rfl, rfl, rfl, rfl⟩, ⟨_, rfl⟩⟩,
    ⟨inv_wait4, ⟨rfl, rfl⟩, by decide, rfl, by decide, rfl, ⟨_, rfl⟩⟩, ⟨⟨rfl, rfl⟩, by decide, ⟨_, rfl⟩⟩⟩

theorem witness_BlockVectorsAreMsbFirst :
    chunk.length = BlockSize.bytes .b16 ∧ 0 < BlockSize.bytes .b16 ∧ 15 < BlockSize.bytes .b16 ∧
    (zeroBytes 32).length = BlockSize.bytes .b32 ∧ 31 < BlockSize.bytes .b32 := by decide

theorem witness_BlockTakesThreeCycles :
    let s : State := ⟨ready20, 0, [write 0x08 4, { quiet with coreReqReady := true }, answer 1 false], 0⟩
    Inv s.st ∧ s.st.state = .ready ∧ writes (write 0x08 4) 0x08 4 ∧ (answer 1 false).coreRspValid = true ∧
      (answer 1 false).coreRspErr = false ∧ (answer 1 false).busSel = false :=
  ⟨inv_ready20, rfl, ⟨rfl, rfl, rfl, rfl⟩, rfl, rfl, rfl⟩

theorem witness_LoadPseudoInstructionsLoad : Inv (st busy20).st := inv_busy20

/-! ### A message of one byte, with B = 8 and the core ID -/

/-- IDLE with the nonce 01 02 03 04, MSG_LEN = 1 and the byte `b` in DIN. -/
def oneByte (b : Byte) : Controller :=
  { Controller.resetOf .b8 with nonce := [1, 2, 3, 4], nonceLen := 4, msgLen := 1, din := b :: zeroBytes 7 }

theorem inv_oneByte : Inv (oneByte 0x5A) ∧ Inv (oneByte 0x5B) := by
  constructor <;> (constructor <;> first | decide | (constructor <;> decide))

/-- After START. -/
def oneByteStarted (b : Byte) : State :=
  st { oneByte b with ctrblk := [1, 2, 3, 4, 0, 0, 0, 1], ctrv := true, remain := 1, state := .ready }

theorem oneByte_start :
    exec .start (st (oneByte 0x5A)) = .next (oneByteStarted 0x5A) ∧
    exec .start (st (oneByte 0x5B)) = .next (oneByteStarted 0x5B) :=
  ⟨congrArg Host.Outcome.next (by decide : (st (oneByte 0x5A)).setSt
      ((oneByte 0x5A).guarded (legal .start (oneByte 0x5A)) (Controller.runStart false)) = oneByteStarted 0x5A),
    congrArg Host.Outcome.next (by decide : (st (oneByte 0x5B)).setSt
      ((oneByte 0x5B).guarded (legal .start (oneByte 0x5B)) (Controller.runStart false)) = oneByteStarted 0x5B)⟩

/-- BLOCK, acceptance, response: the whole message. -/
def oneByteRun : List Event := [.host .block, .coreAccept, .coreRespond [1, 2, 3, 4, 0, 0, 0, 1] false]

theorem oneByte_messageRun (b : Byte) : messageRun id [b] oneByteRun (oneByteStarted b) := by
  refine ⟨rfl, ⟨rfl, (fun m x h => by cases h), ?_⟩, _, rfl, rfl, rfl, ⟨rfl, (fun m x h => by cases h), ?_⟩, _, rfl, rfl,
    rfl, ⟨rfl, ?_, ?_⟩, _, rfl, rfl, trivial⟩
  · intro i _ _ j hj
    have h1 : min (oneByteStarted b).st.size.bytes (oneByteStarted b).st.remain.toNat = 1 := rfl
    have h0 : j = 0 := by omega
    subst h0
    rfl
  · intro i h; cases h
  · intro m x h; cases h; exact ⟨rfl, rfl⟩
  · intro i h; cases h

/-- The hypotheses of MessageOutputsTheEncryption and OneRequestPerBlockWithFreshCounter, with a run to the end. -/
theorem witness_MessageOutputsTheEncryption :
    let s0 := st (oneByte 0x5A)
    Inv s0.st ∧ s0.st.state = .idle ∧ s0.st.nonceLen.toNat = s0.st.size.bytes - 4 ∧
      s0.st.msgLen.toNat = [(0x5A : Byte)].length ∧ 1 ≤ [(0x5A : Byte)].length ∧
      [(0x5A : Byte)].length ≤ 2 ^ 32 * s0.st.size.bytes ∧ s0.ports.coreKeyErr = false ∧
      exec .start s0 = .next (oneByteStarted 0x5A) ∧ messageRun id [0x5A] oneByteRun (oneByteStarted 0x5A) ∧
      (∃ s', runEvents oneByteRun (oneByteStarted 0x5A) = some s' ∧ s'.st.state = .idle) ∧
      outputs oneByteRun (oneByteStarted 0x5A) = [0x5B] :=
  ⟨inv_oneByte.1, rfl, rfl, rfl, by decide, by decide, rfl, oneByte_start.1, oneByte_messageRun _, ⟨_, rfl, rfl⟩, by decide⟩

/-- The second run, on the output of the first. -/
theorem witness_DecryptionIsEncryption :
    let u0 := st (oneByte 0x5B)
    Inv u0.st ∧ u0.st.state = .idle ∧ u0.st.nonceLen = (oneByte 0x5A).nonceLen ∧ u0.st.nonce = (oneByte 0x5A).nonce ∧
      u0.st.size = (oneByte 0x5A).size ∧ u0.st.msgLen = (oneByte 0x5A).msgLen ∧ u0.ports.coreKeyErr = false ∧
      exec .start u0 = .next (oneByteStarted 0x5B) ∧
      messageRun id (outputs oneByteRun (oneByteStarted 0x5A)) oneByteRun (oneByteStarted 0x5B) ∧
      (∃ u', runEvents oneByteRun (oneByteStarted 0x5B) = some u' ∧ u'.st.state = .idle) := by
  refine ⟨inv_oneByte.2, rfl, rfl, rfl, rfl, rfl, rfl, oneByte_start.2, ?_, ⟨_, rfl, rfl⟩⟩
  rw [witness_MessageOutputsTheEncryption.2.2.2.2.2.2.2.2.2.2]
  exact oneByte_messageRun _

end Sys2Proof.Tests
end

section
/-! SUPPORT. The proofs of the state family (10_state.md): what every cycle keeps, a cycle as its atomic steps in
R40's order, the registers as the host reads and writes them, and what changes the flags. -/

namespace Sys2Proof.Proofs

open Sys2Proof.Machine Sys2Proof.Safety

/-! ## The invariants (R41) -/

/-- Settles O8: the invariants hold of R250's values, whatever the block size. -/
theorem resetHasInvariants : Obligations.ResetHasInvariants :=
  ⟨inv_resetOf BlockSize.reference, inv_resetOf⟩

/-- Settles O7: a cycle is reset, or the core's part and then one host effect (R40), and each of these keeps the
invariants and the block size. -/
theorem stepKeepsInvariants : Obligations.StepKeepsInvariants := by
  intro s s' hinv hstep
  rcases step_cases hstep with ⟨_, hreset⟩ | ⟨_, heffect⟩
  · rw [hreset]
    exact ⟨inv_resetOf s.st.size, rfl⟩
  · exact ⟨inv_hostEffect (inv_corePhase hinv s.ports) heffect,
      (hostEffect_size heffect).trans (s.st.corePhase_size s.ports)⟩

/-! ## A cycle as its atomic steps (R40) -/

/-- Two runs of atomic steps, one after the other. -/
theorem runEvents_append {es fs : List Event} {s t : State} (h : runEvents es s = some t) :
    runEvents (es ++ fs) s = runEvents fs t := by
  induction es generalizing s with
  | nil =>
    cases h
    rfl
  | cons e es ih =>
    rw [List.cons_append, runEvents]
    rw [runEvents] at h
    split
    · rw [if_pos ‹_›] at h
      split <;> simp_all
    · rw [if_neg ‹_›] at h
      cases h

/-- An atomic step that is taken only under a condition `P`, which the cycle tests as `b`, and is enabled then. -/
theorem runEvents_ite {P : Prop} [Decidable P] {b : Bool} {e : Event} {s t : State} (hb : b = true ↔ P)
    (h : P → e.enabled s.st = true ∧ eventStep e s = .next t) :
    runEvents (if P then [e] else []) s = some (if b then t else s) := by
  by_cases hP : P
  · obtain ⟨henabled, hnext⟩ := h hP
    simp [runEvents, hP, hb.mpr hP, henabled, hnext]
  · rw [if_neg hP, if_neg (mt hb.mp hP), runEvents]

/-- The core's acceptance in a cycle with ports `p`, if a request is pending and the core is ready (R40, R148). -/
def acceptPhase (c : Controller) (p : Ports) : Controller :=
  if c.reqPend && p.coreReqReady then c.coreAccept else c

/-- The core's part of a cycle is the acceptance and then the response, if a request was outstanding at the start (R40). -/
theorem corePhase_eq_respond_accept (c : Controller) (p : Ports) :
    c.corePhase p = if p.coreRspValid && c.outst then
      (acceptPhase c p).coreRespond (unpackBlock c.size.bytes p.coreRspBlock) p.coreRspErr else acceptPhase c p := rfl

/-- An acceptance ends no request. -/
theorem acceptPhase_outst {c : Controller} (h : c.outst = true) (p : Ports) : (acceptPhase c p).outst = true := by
  unfold acceptPhase
  split
  · rfl
  · exact h

/-- The read of a cycle is one atomic step of the host, from bus_rdata = 0 (R21, R40). -/
theorem runEvents_read (s : State) :
    runEvents (if s.ports.busSel = true ∧ s.ports.busWe = false then [.host (.rd s.ports.busAddr)] else [])
      (s.setRdata 0) = some (s.setRdata (cycleRdata s)) := by
  rw [runEvents_ite (b := s.ports.busSel && !s.ports.busWe) (by simp) fun _ => ⟨rfl, rfl⟩, cycleRdata]
  split <;> rfl

theorem runEvents_accept (s : State) (p : Ports) :
    runEvents (if s.st.coreReqValid = true ∧ p.coreReqReady = true then [.coreAccept] else []) s
      = some (s.setSt (acceptPhase s.st p)) := by
  rw [runEvents_ite (b := s.st.reqPend && p.coreReqReady) (by simp [Controller.coreReqValid]) fun h => ⟨h.1, rfl⟩,
    acceptPhase]
  split <;> rfl

/-- The response of a cycle, after its acceptance. -/
theorem runEvents_respond (s : State) (p : Ports) :
    runEvents (if p.coreRspValid = true ∧ s.st.outst = true then
        [.coreRespond (unpackBlock s.st.size.bytes p.coreRspBlock) p.coreRspErr] else [])
      (s.setSt (acceptPhase s.st p)) = some (s.setSt (s.st.corePhase p)) := by
  rw [runEvents_ite (s := s.setSt (acceptPhase s.st p)) (e := .coreRespond _ _) (b := p.coreRspValid && s.st.outst)
    (by simp) fun h => ⟨acceptPhase_outst h.2 p, rfl⟩, corePhase_eq_respond_accept]
  split <;> rfl

/-- The core's part of a cycle is its acceptance and its response as atomic steps. -/
theorem runEvents_core (s : State) (p : Ports) :
    runEvents ((if s.st.coreReqValid = true ∧ p.coreReqReady = true then [.coreAccept] else []) ++
        if p.coreRspValid = true ∧ s.st.outst = true then
          [.coreRespond (unpackBlock s.st.size.bytes p.coreRspBlock) p.coreRspErr] else []) s
      = some (s.setSt (s.st.corePhase p)) :=
  (runEvents_append (runEvents_accept s p)).trans (runEvents_respond s p)

/-- Settles O9: each phase of a cycle is the run of its atomic step, and the phases one after the other leave the state
before the clock edge. -/
theorem cycleIsSequenceOfAtomicSteps : Obligations.CycleIsSequenceOfAtomicSteps := by
  intro s
  refine ⟨cycleState s, ?_, step_eq s⟩
  rw [runEvents_append (runEvents_read s), cycleState]
  by_cases hrst : s.ports.rst = true
  · rw [if_pos hrst, if_pos hrst]
    rfl
  · rw [if_neg hrst, if_neg hrst]
    refine (runEvents_append (runEvents_core (s.setRdata (cycleRdata s)) s.ports)).trans ?_
    refine (runEvents_ite (e := .host (cycleWrite s)) (b := s.ports.busSel && s.ports.busWe) (by simp)
      fun _ => ⟨rfl, exec_next _ _⟩).trans ?_
    split <;> rfl

/-! ## Reading registers at addresses (R62, R176) -/

/-- The address of a register names that register (R62). -/
theorem regAt_offset (r : Reg) : regAt r.offset = some r := by
  cases r with
  | nonce k | ctrblk k | din k | dout k => revert k; decide
  | _ => rfl

/-- No other address names it (R62). -/
theorem offset_of_regAt {a : BitVec 8} {r : Reg} (h : regAt a = some r) : a = r.offset := by
  have key : ∀ a : BitVec 8, (regAt a).all (fun r => a == r.offset) = true := by decide
  simpa [h] using key a

/-- A read at a register's address returns the register (R176). -/
@[simp] theorem busRead_offset (c : Controller) (r : Reg) : busRead c r.offset = readReg c r := by
  rw [busRead, regAt_offset]

/-- Two controllers that agree on every register but `r` read the same at every address but `r`'s. -/
theorem busRead_congr {c d : Controller} {r : Reg} (h : ∀ q, q ≠ r → readReg d q = readReg c q) {a : BitVec 8}
    (ha : a ≠ r.offset) : busRead d a = busRead c a := by
  unfold busRead
  cases hq : regAt a with
  | none => rfl
  | some q => exact h q fun hqr => ha (hqr ▸ offset_of_regAt hq)

/-! ## Writing the staging registers (R31, R95, R175) -/

/-- Bits [n-1:0] of a word, as a word: what a register of `n` bits reads after a write of it. -/
theorem setWidth_extractLsb'_zero (d : Word) {n : Nat} (hn : n ≤ 32) :
    (d.extractLsb' 0 n).setWidth 32 = d &&& BitVec.ofNat 32 (2 ^ n - 1) := by
  have hpow : 2 ^ n ≤ 2 ^ 32 := Nat.pow_le_pow_right (by decide) hn
  have hmod : d.toNat % 2 ^ n < 2 ^ 32 := (Nat.mod_le _ _).trans_lt d.isLt
  apply BitVec.eq_of_toNat_eq
  rw [BitVec.toNat_and, BitVec.toNat_ofNat, Nat.mod_eq_of_lt (by omega), Nat.and_two_pow_sub_one_eq_mod,
    BitVec.toNat_setWidth, BitVec.extractLsb'_toNat, Nat.shiftRight_zero, Nat.mod_eq_of_lt hmod]

/-- The write `i` leaves `v` to be read at address `a`, and every other address reads as before. -/
def StoresAt (i : Instr) (s : State) (a : BitVec 8) (v : Word) : Prop :=
  ∃ t, exec i s = .next t ∧ busRead t.st a = v ∧ ∀ b, b ≠ a → busRead t.st b = busRead s.st b

/-- A write that leaves `v` in one register, and what every other register reads. -/
theorem storesAt_offset {i : Instr} {s : State} {c : Controller} {r : Reg} {v : Word}
    (hexec : exec i s = .next (s.setSt c)) (hread : readReg c r = v)
    (hother : ∀ q, q ≠ r → readReg c q = readReg s.st q) : StoresAt i s r.offset v :=
  ⟨s.setSt c, hexec, (busRead_offset c r).trans hread, fun _ hb => busRead_congr hother hb⟩

/-- The slots of the nonce and input windows, at the addresses of R62. -/
theorem windowAddr_eq (base : BitVec 8) (k : Fin 8) : base + 4 * BitVec.ofNat 8 k.val = windowAddr base k := by
  rw [windowAddr, BitVec.ofNat_mul]
  rfl

/-- A write of INTEN keeps what every other register reads (R30). -/
theorem readReg_set_inten (c : Controller) (v : BitVec 3) {q : Reg} (h : q ≠ .inten) :
    readReg { c with inten := v } q = readReg c q := by
  cases q with
  | inten => exact absurd rfl h
  | _ => rfl

/-- A write of NONCE_LEN keeps what every other register reads (R31). -/
theorem readReg_set_nonceLen (c : Controller) (v : BitVec 6) {q : Reg} (h : q ≠ .nonceLen) :
    readReg { c with nonceLen := v } q = readReg c q := by
  cases q with
  | nonceLen => exact absurd rfl h
  | _ => rfl

/-- A write to the low word of MSG_LEN keeps the high word (R31). -/
theorem readReg_set_msgLenLo (c : Controller) (d : Word) {q : Reg} (h : q ≠ .msgLenLo) :
    readReg { c with msgLen := c.msgLen.extractLsb' 32 32 ++ d } q = readReg c q := by
  cases q with
  | msgLenLo => exact absurd rfl h
  | msgLenHi => exact BitVec.extractLsb'_append_eq_left
  | _ => rfl

/-- A write to the high word of MSG_LEN keeps the low word (R31). -/
theorem readReg_set_msgLenHi (c : Controller) (d : Word) {q : Reg} (h : q ≠ .msgLenHi) :
    readReg { c with msgLen := d ++ c.msgLen.extractLsb' 0 32 } q = readReg c q := by
  cases q with
  | msgLenHi => exact absurd rfl h
  | msgLenLo => exact BitVec.extractLsb'_append_eq_right
  | _ => rfl

/-- A slot of the nonce window reads its word of the nonce, or 0 where it is not implemented (R68, R176). -/
theorem readReg_nonce (c : Controller) (k : Fin 8) :
    readReg c (.nonce k) = if k.val < c.size.nw then wordAt c.nonce k.val else 0 := by
  by_cases hk : k.val < c.size.nw <;> simp [readReg, Reg.implemented, hk]

/-- A slot of the input window, in the same way. -/
theorem readReg_din (c : Controller) (k : Fin 8) :
    readReg c (.din k) = if k.val < c.size.bw then wordAt c.din k.val else 0 := by
  by_cases hk : k.val < c.size.bw <;> simp [readReg, Reg.implemented, hk]

theorem four_mul_nw_le (z : BlockSize) : 4 * z.nw ≤ z.nonceBytes := by cases z <;> decide
theorem four_mul_bw_le (z : BlockSize) : 4 * z.bw ≤ z.bytes := by cases z <;> decide

/-- Of a window with `m` slots on a buffer of `n` bytes, the slot whose word was set reads it, where it is implemented. -/
theorem windowWord_setWord_self {n m k : Nat} (buf : Bytes) (d : Word) (hm : 4 * m ≤ n) :
    (if k < m then wordAt (setWord n buf k d) k else 0) = if k < m then d else 0 := by
  split
  · exact wordAt_setWord_self buf d (by omega)
  · rfl

/-- Every other slot of the window reads as before. -/
theorem windowWord_setWord_ne {n m j k : Nat} (buf : Bytes) (d : Word) (hm : 4 * m ≤ n) (hne : j ≠ k) :
    (if j < m then wordAt (setWord n buf k d) j else 0) = if j < m then wordAt buf j else 0 := by
  split
  · exact wordAt_setWord_ne buf d (by omega) hne
  · rfl

/-- A write of one word of the nonce keeps every other word of it (R95). -/
theorem readReg_set_nonce (c : Controller) (k : Fin 8) (d : Word) {q : Reg} (h : q ≠ .nonce k) :
    readReg { c with nonce := setWord c.size.nonceBytes c.nonce k.val d } q = readReg c q := by
  cases q with
  | nonce j =>
    have hne : j.val ≠ k.val := fun e => h (congrArg Reg.nonce (Fin.ext e))
    rw [readReg_nonce, readReg_nonce]
    exact windowWord_setWord_ne c.nonce d (four_mul_nw_le c.size) hne
  | _ => rfl

/-- A write of one word of the input chunk keeps every other word of it (R95). -/
theorem readReg_set_din (c : Controller) (k : Fin 8) (d : Word) {q : Reg} (h : q ≠ .din k) :
    readReg { c with din := setWord c.size.bytes c.din k.val d } q = readReg c q := by
  cases q with
  | din j =>
    have hne : j.val ≠ k.val := fun e => h (congrArg Reg.din (Fin.ext e))
    rw [readReg_din, readReg_din]
    exact windowWord_setWord_ne c.din d (four_mul_bw_le c.size) hne
  | _ => rfl

/-- A write to a slot of the nonce window is stored where the slot is implemented, else nothing changes (R68). -/
theorem storesAt_wrNonce (s : State) (k : Fin 8) (d : Word) :
    StoresAt (.wrNonce k d) s (Reg.nonce k).offset (if k.val < s.st.size.nw then d else 0) := by
  by_cases hk : k.val < s.st.size.nw
  · refine storesAt_offset (congrArg _ (if_pos hk)) ?_ fun q hq => readReg_set_nonce s.st k d hq
    rw [readReg_nonce]
    exact windowWord_setWord_self s.st.nonce d (four_mul_nw_le s.st.size)
  · refine storesAt_offset (c := s.st) (congrArg _ (if_neg hk)) ?_ fun q _ => rfl
    rw [readReg_nonce, if_neg hk, if_neg hk]

/-- A write to a slot of the input window, in the same way. -/
theorem storesAt_wrDin (s : State) (k : Fin 8) (d : Word) :
    StoresAt (.wrDin k d) s (Reg.din k).offset (if k.val < s.st.size.bw then d else 0) := by
  by_cases hk : k.val < s.st.size.bw
  · refine storesAt_offset (congrArg _ (if_pos hk)) ?_ fun q hq => readReg_set_din s.st k d hq
    rw [readReg_din]
    exact windowWord_setWord_self s.st.din d (four_mul_bw_le s.st.size)
  · refine storesAt_offset (c := s.st) (congrArg _ (if_neg hk)) ?_ fun q _ => rfl
    rw [readReg_din, if_neg hk, if_neg hk]

/-- Settles O42: every staging write sets one register, or none where its slot is not implemented, and an address names
at most one register. -/
theorem stagingWritesReadBack : Obligations.StagingWritesReadBack := by
  intro s k d i at_ v _ hwrite
  rcases hwrite with ⟨rfl, rfl, hv⟩ | ⟨rfl, rfl, hv⟩ | ⟨rfl, rfl, hv⟩ | ⟨rfl, rfl, hv⟩ | ⟨rfl, rfl, rfl⟩ |
    ⟨rfl, rfl, rfl⟩
  · exact storesAt_offset (r := .inten) rfl ((setWidth_extractLsb'_zero d (n := 3) (by decide)).trans hv.symm)
      fun _ => readReg_set_inten s.st _
  · exact storesAt_offset (r := .nonceLen) rfl ((setWidth_extractLsb'_zero d (n := 6) (by decide)).trans hv.symm)
      fun _ => readReg_set_nonceLen s.st _
  · exact storesAt_offset (r := .msgLenLo) rfl (BitVec.extractLsb'_append_eq_right.trans hv.symm)
      fun _ => readReg_set_msgLenLo s.st d
  · exact storesAt_offset (r := .msgLenHi) rfl (BitVec.extractLsb'_append_eq_left.trans hv.symm)
      fun _ => readReg_set_msgLenHi s.st d
  · rw [windowAddr_eq]
    exact storesAt_wrNonce s k d
  · rw [windowAddr_eq]
    exact storesAt_wrDin s k d

/-! ## STATUS, ID and PARAM (R22 to R24) -/

/-- A flag stands at its own bit and at no other. -/
theorem getLsbD_flagBit (f : Bool) (i j : Nat) : (flagBit f i).getLsbD j = (decide (j = i ∧ j < 32) && f) := by
  simp only [flagBit, BitVec.getLsbD_shiftLeft, BitVec.getLsbD_setWidth, BitVec.getLsbD_ofBool]
  rcases Nat.lt_trichotomy j i with h | rfl | h
  · simp [h, h.ne]
  · by_cases hj : j < 32 <;> simp [hj]
  · simp [h.ne', show j - i ≠ 0 by omega]

/-- STATUS bit by bit (R24). -/
theorem getLsbD_statusWord (c : Controller) {j : Nat} (hj : j < 32) :
    (statusWord c).getLsbD j =
      (c.state.code.getLsbD j || (decide (j = 3) && c.ctrv) || (decide (j = 4) && c.doutv)
        || (decide (j = 5) && c.done) || (decide (j = 6) && c.err)
        || (decide (8 ≤ j) && c.errcode.code.getLsbD (j - 8))) := by
  have h8 : (!decide (j < 8)) = decide (8 ≤ j) := by rw [← decide_not, decide_eq_decide, Nat.not_lt]
  simp only [statusWord, BitVec.getLsbD_or, BitVec.getLsbD_shiftLeft, BitVec.getLsbD_setWidth, getLsbD_flagBit, hj, h8,
    show j - 8 < 32 by omega, and_true, decide_true, Bool.true_and]

/-- Bits [2:0] of STATUS are STATE (R24). -/
theorem extractLsb'_statusWord_state (c : Controller) : (statusWord c).extractLsb' 0 3 = c.state.code := by
  apply BitVec.eq_of_getLsbD_eq
  intro j hj
  rw [BitVec.getLsbD_extractLsb', getLsbD_statusWord c (by omega)]
  simp [hj, show 0 + j = j by omega, show j ≠ 3 ∧ j ≠ 4 ∧ j ≠ 5 ∧ j ≠ 6 ∧ ¬ 8 ≤ j by omega]

/-- Bits [11:8] of STATUS are ERRCODE (R24). -/
theorem extractLsb'_statusWord_errcode (c : Controller) : (statusWord c).extractLsb' 8 4 = c.errcode.code := by
  apply BitVec.eq_of_getLsbD_eq
  intro j hj
  rw [BitVec.getLsbD_extractLsb', getLsbD_statusWord c (by omega), BitVec.getLsbD_of_ge c.state.code _ (by omega)]
  simp [hj, show 8 + j ≠ 3 ∧ 8 + j ≠ 4 ∧ 8 + j ≠ 5 ∧ 8 + j ≠ 6 by omega]

/-- Bits 12 and up of STATUS are 0 (R24). -/
theorem extractLsb'_statusWord_high (c : Controller) : (statusWord c).extractLsb' 12 20 = 0 := by
  apply BitVec.eq_of_getLsbD_eq
  intro j hj
  rw [BitVec.getLsbD_extractLsb', getLsbD_statusWord c (by omega), BitVec.getLsbD_of_ge c.state.code _ (by omega),
    BitVec.getLsbD_of_ge c.errcode.code _ (by omega)]
  simp [show 12 + j ≠ 3 ∧ 12 + j ≠ 4 ∧ 12 + j ≠ 5 ∧ 12 + j ≠ 6 by omega]

/-- Bits 3 to 7 of STATUS: the four flags, and a bit that is always 0 (R24). -/
theorem getLsbD_statusWord_flags (c : Controller) :
    (statusWord c).getLsbD 3 = c.ctrv ∧ (statusWord c).getLsbD 4 = c.doutv ∧ (statusWord c).getLsbD 5 = c.done ∧
      (statusWord c).getLsbD 6 = c.err ∧ (statusWord c).getLsbD 7 = false := by
  have hcode : ∀ j, 3 ≤ j → c.state.code.getLsbD j = false := c.state.code.getLsbD_of_ge
  refine ⟨?_, ?_, ?_, ?_, ?_⟩ <;> rw [getLsbD_statusWord c (by decide), hcode _ (by decide)] <;> simp

/-- The codes of STATE are different, and below 5 (R24). -/
theorem code_eq_iff (x : CtlState) :
    (x.code = 0 ↔ x = .idle) ∧ (x.code = 1 ↔ x = .ready) ∧ (x.code = 2 ↔ x = .busy) ∧ (x.code = 3 ↔ x = .error) ∧
      (x.code = 4 ↔ x = .drain) ∧ x.code.toNat < 5 := by
  cases x <;> decide

/-- A write to an address without a row of its own in the opcode table is ignored (R67, R68). -/
theorem exec_write_unnamed {a : BitVec 8} (h : namedWriteAddr a = false) (d : Word) (s : State) :
    exec (decodeBus ⟨true, a, d⟩) s = .next s := by
  have hdecode : decodeBus ⟨true, a, d⟩ = .wrOther a d :=
    Laws.RoundTrip.wrOther a d (by simp [Instr.wellFormed, h])
  rw [hdecode]
  rfl

theorem statusWord_resetOf (z : BlockSize) : statusWord (Controller.resetOf z) = 0 := by
  simp [statusWord, Controller.resetOf, CtlState.code, ErrCode.code, flagBit]

/-- Settles O43: the fields are read off STATUS bit by bit, and a write to it goes to a read-only address. -/
theorem statusFieldsStandInPlace : Obligations.StatusFieldsStandInPlace := by
  refine ⟨fun s d => exec_write_unnamed (by decide) d s,
    fun z => (busRead_offset _ .status).trans (statusWord_resetOf z), by decide, fun c => ?_⟩
  intro w
  have hw : w = statusWord c := busRead_offset c .status
  obtain ⟨hctrv, hdoutv, hdone, herr, hzero⟩ := getLsbD_statusWord_flags c
  rw [hw]
  exact ⟨extractLsb'_statusWord_state c, hctrv, hdoutv, hdone, herr, hzero, extractLsb'_statusWord_errcode c,
    extractLsb'_statusWord_high c, code_eq_iff c.state⟩

/-- The fields of PARAM: B in bits [7:0], B-4 in bits [15:8], 0 above (R23). -/
theorem paramWord_fields (c : Controller) :
    (paramWord c).extractLsb' 0 8 = BitVec.ofNat 8 c.size.bytes ∧
      (paramWord c).extractLsb' 8 8 = BitVec.ofNat 8 c.size.nonceBytes ∧ (paramWord c).extractLsb' 16 16 = 0 := by
  unfold paramWord
  cases c.size <;> decide

/-- Settles O44: both registers read what does not depend on the state, and are read-only. -/
theorem idAndParamAreConstant : Obligations.IdAndParamAreConstant := by
  intro s d
  have hid : busRead s.st 0x00 = Config.idWord := busRead_offset s.st .id
  have hparam : busRead s.st 0x04 = paramWord s.st := busRead_offset s.st .param
  obtain ⟨hbytes, hnonce, hzero⟩ := paramWord_fields s.st
  rw [hid, hparam]
  refine ⟨rfl, hbytes, hnonce, hzero, fun hsize => ?_, exec_write_unnamed (by decide) d s,
    exec_write_unnamed (by decide) d s⟩
  rw [paramWord, hsize]
  rfl

/-! ## What changes CTRV, DOUTV and DONE (R25 to R27) -/

/-- What the host's write in a cycle with ports `p` does to the flags CTRV, DOUTV, DONE and ERR, with the command behind each
change (R110, R140, R145, R171, R209). -/
inductive FlagEffect (p : Ports) (c d : Controller) : Prop where
  | kept (hctrv : d.ctrv = c.ctrv) (hdoutv : d.doutv = c.doutv) (hdone : d.done = c.done) (herr : d.err = c.err)
  | error (hctrv : d.ctrv = false) (hdoutv : d.doutv = false) (hdone : d.done = false) (hclear : c.err = false)
      (herr : d.err = true)
  | init (hw : writes p 0x08 1) (hctrv : d.ctrv = true) (hdoutv : d.doutv = c.doutv) (hdone : d.done = c.done)
      (hclear : c.err = false) (herr : d.err = false) (hseed : d.ctrblk = initCounter c.size.bytes c.nonce)
  | start (hw : writes p 0x08 3) (hctrv : d.ctrv = true) (hdoutv : d.doutv = false)
      (hdone : d.done = if c.msgLen = 0 then true else false) (hclear : c.err = false) (herr : d.err = false)
      (hseed : d.ctrblk = initCounter c.size.bytes c.nonce)
  | block (hw : writes p 0x08 4) (hctrv : d.ctrv = c.ctrv) (hdoutv : d.doutv = false) (hdone : d.done = c.done)
      (herr : d.err = c.err)
  | abort (hw : writes p 0x08 5) (hctrv : d.ctrv = false) (hdoutv : d.doutv = false) (hdone : d.done = false)

/-- Error entry in a state with the invariants that listens to commands. -/
theorem flagEffect_raiseError {c : Controller} (h : Inv c) (hd : c.deaf = false) (p : Ports) (code : ErrCode) :
    FlagEffect p c (c.raiseError code) := by
  have hclear := inv_err_false h hd
  rw [Controller.raiseError_eq_errorState hclear]
  exact .error rfl rfl rfl hclear rfl

/-- In IDLE no error is recorded. -/
theorem inv_err_false_of_idle {c : Controller} (h : Inv c) (hi : c.state = .idle) : c.err = false :=
  inv_err_false h (c.deaf_eq_false_iff.mpr (.inl hi))

theorem flagEffect_command {p : Ports} {w : Word} {c d : Controller} (h : Inv c) (hw : writes p 0x08 w)
    (e : CommandEffect w c d) : FlagEffect p c d := by
  cases e with
  | same hd => subst hd; exact .kept rfl rfl rfl rfl
  | error code _ hdeaf hd => subst hd; exact flagEffect_raiseError h hdeaf p code
  | init hword hi _ hd =>
    subst hword hd
    have hclear := inv_err_false_of_idle h hi
    exact .init hw rfl rfl rfl hclear hclear rfl
  | inc _ _ _ hd => subst hd; exact .kept rfl rfl rfl rfl
  | start hword hi _ _ hd =>
    subst hword hd
    have hclear := inv_err_false_of_idle h hi
    exact .start hw rfl rfl rfl hclear hclear rfl
  | block hword _ hd => subst hword hd; exact .block hw rfl rfl rfl rfl
  | abort hword hd => subst hword hd; exact .abort hw rfl rfl rfl

/-- The host's write in a cycle has one of the effects on the flags. -/
theorem flagEffect_write {p : Ports} {c d : Controller} (h : Inv c) (e : WriteEffect p c d) : FlagEffect p c d := by
  cases e with
  | staging _ _ _ _ _ hd => subst hd; exact .kept rfl rfl rfl rfl
  | ctr _ _ _ _ hd => subst hd; exact .kept rfl rfl rfl rfl
  | ctrError _ _ hdeaf hd => subst hd; exact flagEffect_raiseError h hdeaf p .sequence
  | command w hw hd => exact flagEffect_command h hw hd

/-- A cycle is reset, or the core's part and then one effect on the flags, from a state with the invariants. -/
theorem step_flagEffect {s s' : State} (h : Inv s.st) (hstep : step s = .next s') :
    (s.ports.rst = true ∧ s'.st = Controller.resetOf s.st.size) ∨
      (s.ports.rst = false ∧ FlagEffect s.ports (s.st.corePhase s.ports) s'.st) := by
  rcases step_effect hstep with hreset | ⟨hrst, hwrite⟩
  · exact .inl hreset
  · exact .inr ⟨hrst, flagEffect_write (inv_corePhase h s.ports) hwrite⟩

/-! ### The flags under the core's part of a cycle -/

/-- A response with an error is error entry after the request is over (R151). -/
theorem endRequest_raiseError {c : Controller} (h : Inv c) (hs : c.state = .busy) :
    c.endRequest.raiseError .keySetup = errorState .keySetup c.endRequest := by
  obtain ⟨_, _, _, herr⟩ := h.busy hs
  exact Controller.raiseError_eq_errorState (c := c.endRequest) herr .keySetup

/-- The core leaves what the host staged (R264). -/
theorem corePhase_staging {c : Controller} (h : Inv c) (p : Ports) :
    (c.corePhase p).nonce = c.nonce ∧ (c.corePhase p).msgLen = c.msgLen := by
  cases corePhase_effect h p with
  | same hd _ _ => rw [hd]; exact ⟨rfl, rfl⟩
  | accept hd _ _ _ _ => rw [hd]; exact ⟨rfl, rfl⟩
  | complete hd _ _ _ _ _ => rw [hd]; exact ⟨rfl, rfl⟩
  | fail hd _ hs _ _ _ => rw [hd, endRequest_raiseError h hs]; exact ⟨rfl, rfl⟩
  | discard hd _ _ _ _ => rw [hd]; exact ⟨rfl, rfl⟩

/-- CTRV changes in the core's part only where error entry clears it (R151). -/
theorem corePhase_ctrv {c : Controller} (h : Inv c) (p : Ports) :
    (c.corePhase p).ctrv = c.ctrv ∨ ((c.corePhase p).ctrv = false ∧ (c.corePhase p).err = true) := by
  cases corePhase_effect h p with
  | same hd _ _ => rw [hd]; exact .inl rfl
  | accept hd _ _ _ _ => rw [hd]; exact .inl rfl
  | complete hd _ _ _ _ _ => rw [hd]; exact .inl rfl
  | fail hd _ hs _ _ _ => rw [hd, endRequest_raiseError h hs]; exact .inr ⟨rfl, rfl⟩
  | discard hd _ _ _ _ => rw [hd]; exact .inl rfl

/-- DOUTV changes in the core's part only where a block is complete, which sets it (R150): in BUSY it was clear before. -/
theorem corePhase_doutv {c : Controller} (h : Inv c) (p : Ports) :
    (c.corePhase p).doutv = c.doutv ∨ ((c.corePhase p).doutv = true ∧ c.state = .busy ∧
      p.coreRspValid = true ∧ c.outst = true ∧ p.coreRspErr = false) := by
  cases corePhase_effect h p with
  | same hd _ _ => rw [hd]; exact .inl rfl
  | accept hd _ _ _ _ => rw [hd]; exact .inl rfl
  | complete hd he hs hv ho _ => rw [hd]; exact .inr ⟨rfl, hs, hv, ho, he⟩
  | fail hd _ hs _ _ _ => rw [hd, endRequest_raiseError h hs, h.hidden hs]; exact .inl rfl
  | discard hd _ _ _ _ => rw [hd]; exact .inl rfl

/-- DONE changes in the core's part only where the last block is complete, which sets it (R150): in BUSY it was clear
before. -/
theorem corePhase_done {c : Controller} (h : Inv c) (p : Ports) :
    (c.corePhase p).done = c.done ∨ ((c.corePhase p).done = true ∧ c.state = .busy ∧
      p.coreRspValid = true ∧ c.outst = true ∧ p.coreRspErr = false ∧ c.remain.toNat = c.wlen) := by
  cases corePhase_effect h p with
  | same hd _ _ => rw [hd]; exact .inl rfl
  | accept hd _ _ _ _ => rw [hd]; exact .inl rfl
  | complete hd he hs hv ho _ =>
    obtain ⟨_, hwlen, _, _⟩ := h.busy hs
    rw [hd]
    by_cases hlast : c.remain - BitVec.ofNat 64 c.wlen = 0
    · exact .inr ⟨if_pos hlast, hs, hv, ho, he, (remain_sub_wlen hwlen).2.mp hlast⟩
    · exact .inl (if_neg hlast)
  | fail hd _ hs _ _ _ => rw [hd, endRequest_raiseError h hs, inv_done_false h (by simp [hs])]; exact .inl rfl
  | discard hd _ _ _ _ => rw [hd]; exact .inl rfl

/-- Where a flag of a message stands no error is recorded. -/
theorem inv_err_false_of_flag {c : Controller} (h : Inv c) (hf : c.ctrv = true ∨ c.doutv = true ∨ c.done = true) :
    c.err = false := by
  refine inv_err_false h (Bool.eq_false_iff.mpr fun hdeaf => ?_)
  obtain ⟨hctrv, hdoutv, hdone, _⟩ := h.cleared hdeaf
  simp [hctrv, hdoutv, hdone] at hf

/-- With an error recorded when the host writes, one is recorded after it, unless the write is ABORT (R214). -/
theorem flagEffect_err {p : Ports} {c d : Controller} (e : FlagEffect p c d) (hc : c.err = true) :
    d.err = true ∨ writes p 0x08 5 := by
  cases e with
  | kept _ _ _ herr => exact .inl (herr.trans hc)
  | error _ _ _ _ herr => exact .inl herr
  | init _ _ _ _ hclear _ _ => rw [hclear] at hc; cases hc
  | start _ _ _ _ hclear _ _ => rw [hclear] at hc; cases hc
  | block _ _ _ _ herr => exact .inl (herr.trans hc)
  | abort hw _ _ _ => exact .inr hw

/-! ### CTRV (R25) -/

/-- A write sets CTRV only as INIT or START, which seed the counter, and clears it only with an error or as ABORT. -/
theorem flagEffect_ctrv {p : Ports} {c d : Controller} (e : FlagEffect p c d) :
    d.ctrv = c.ctrv ∨
      (d.ctrv = true ∧ (writes p 0x08 1 ∨ writes p 0x08 3) ∧ d.err = false ∧
        d.ctrblk = initCounter c.size.bytes c.nonce) ∨
      (d.ctrv = false ∧ (d.err = true ∨ writes p 0x08 5)) := by
  cases e with
  | kept hctrv _ _ _ => exact .inl hctrv
  | error hctrv _ _ _ herr => exact .inr (.inr ⟨hctrv, .inl herr⟩)
  | init hw hctrv _ _ _ herr hseed => exact .inr (.inl ⟨hctrv, .inl hw, herr, hseed⟩)
  | start hw hctrv _ _ _ herr hseed => exact .inr (.inl ⟨hctrv, .inr hw, herr, hseed⟩)
  | block _ hctrv _ _ _ => exact .inl hctrv
  | abort hw hctrv _ _ => exact .inr (.inr ⟨hctrv, .inr hw⟩)

/-- Settles O51: the core's part clears CTRV only with an error, and never sets it; the rest is the host's write. -/
theorem counterValidFlagChanges : Obligations.CounterValidFlagChanges := by
  intro s s' hinv hstep
  rcases step_flagEffect hinv hstep with ⟨hrst, hreset⟩ | ⟨hrst, heffect⟩
  · rw [hreset]
    exact ⟨fun _ hset => (nomatch hset), fun _ _ => .inl hrst⟩
  have hcore := corePhase_ctrv hinv s.ports
  have hwrite := flagEffect_ctrv heffect
  refine ⟨fun hclear hset => ?_, fun hset hclear => ?_⟩
  · have hcoreClear : (s.st.corePhase s.ports).ctrv = false :=
      hcore.elim (fun hkept => hkept.trans hclear) And.left
    rw [hcoreClear, hset, s.st.corePhase_size, (corePhase_staging hinv s.ports).1] at hwrite
    obtain ⟨_, hcause, herr, hseed⟩ := (hwrite.resolve_left (by decide)).resolve_right (by simp)
    exact ⟨hrst, hcause, herr, hseed⟩
  · have hcause : s'.st.err = true ∨ writes s.ports 0x08 5 := by
      rcases hcore with hkept | ⟨_, herr⟩
      · rw [hkept, hset, hclear] at hwrite
        exact ((hwrite.resolve_left (by decide)).resolve_left (by simp)).2
      · exact flagEffect_err heffect herr
    exact .inr (hcause.imp_left fun herr => ⟨inv_err_false_of_flag hinv (.inl hset), herr⟩)

/-! ### DOUTV and DONE (R26, R27) -/

/-- No write sets DOUTV; START, BLOCK and ABORT clear it, and an error does. -/
theorem flagEffect_doutv {p : Ports} {c d : Controller} (e : FlagEffect p c d) :
    d.doutv = c.doutv ∨
      (d.doutv = false ∧ (d.err = true ∨ writes p 0x08 3 ∨ writes p 0x08 4 ∨ writes p 0x08 5)) := by
  cases e with
  | kept _ hdoutv _ _ => exact .inl hdoutv
  | error _ hdoutv _ _ herr => exact .inr ⟨hdoutv, .inl herr⟩
  | init _ _ hdoutv _ _ _ _ => exact .inl hdoutv
  | start hw _ hdoutv _ _ _ _ => exact .inr ⟨hdoutv, .inr (.inl hw)⟩
  | block hw _ hdoutv _ _ => exact .inr ⟨hdoutv, .inr (.inr (.inl hw))⟩
  | abort hw _ hdoutv _ => exact .inr ⟨hdoutv, .inr (.inr (.inr hw))⟩

/-- A write sets DONE only as START of an empty message; START and ABORT clear it, and an error does. -/
theorem flagEffect_done {p : Ports} {c d : Controller} (e : FlagEffect p c d) :
    d.done = c.done ∨ (d.done = true ∧ writes p 0x08 3 ∧ c.msgLen = 0) ∨
      (d.done = false ∧ (d.err = true ∨ writes p 0x08 3 ∨ writes p 0x08 5)) := by
  cases e with
  | kept _ _ hdone _ => exact .inl hdone
  | error _ _ hdone _ herr => exact .inr (.inr ⟨hdone, .inl herr⟩)
  | init _ _ _ hdone _ _ _ => exact .inl hdone
  | start hw _ _ hdone _ _ _ =>
    by_cases hempty : c.msgLen = 0
    · exact .inr (.inl ⟨hdone.trans (if_pos hempty), hw, hempty⟩)
    · exact .inr (.inr ⟨hdone.trans (if_neg hempty), .inr (.inl hw)⟩)
  | block _ _ _ hdone _ => exact .inl hdone
  | abort hw _ _ hdone => exact .inr (.inr ⟨hdone, .inr (.inr hw)⟩)

/-- Settles O52: the core's part only sets DOUTV and DONE, with the response that completes a block; the rest is the host's
write. -/
theorem outputFlagsChange : Obligations.OutputFlagsChange := by
  intro s s' hinv hstep
  rcases step_flagEffect hinv hstep with ⟨hrst, hreset⟩ | ⟨_, heffect⟩
  · rw [hreset]
    exact ⟨fun _ hset => (nomatch hset), fun _ _ => .inl hrst, fun _ hset => (nomatch hset), fun _ _ => .inl hrst⟩
  have hcoreDoutv := corePhase_doutv hinv s.ports
  have hcoreDone := corePhase_done hinv s.ports
  have hwriteDoutv := flagEffect_doutv heffect
  have hwriteDone := flagEffect_done heffect
  refine ⟨fun hclear hset => ?_, fun hset hclear => ?_, fun hclear hset => ?_, fun hset hclear => ?_⟩
  · rcases hcoreDoutv with hkept | ⟨_, hbusy, hvalid, houtst, herr⟩
    · rw [hkept, hclear, hset] at hwriteDoutv
      simp at hwriteDoutv
    · exact ⟨hbusy, ⟨hvalid, houtst⟩, herr⟩
  · have hcore : (s.st.corePhase s.ports).doutv = true := hcoreDoutv.elim (fun hkept => hkept.trans hset) And.left
    rw [hcore, hclear] at hwriteDoutv
    obtain ⟨_, hcause⟩ := hwriteDoutv.resolve_left (by decide)
    exact .inr (hcause.imp_left fun herr => ⟨inv_err_false_of_flag hinv (.inr (.inl hset)), herr⟩)
  · rcases hcoreDone with hkept | ⟨_, hbusy, hvalid, houtst, herr, hlast⟩
    · rw [hkept, hclear, hset, (corePhase_staging hinv s.ports).2] at hwriteDone
      obtain ⟨_, hstart⟩ := (hwriteDone.resolve_left (by decide)).resolve_right (by simp)
      exact .inr hstart
    · exact .inl ⟨hbusy, ⟨hvalid, houtst⟩, herr, hlast⟩
  · have hcore : (s.st.corePhase s.ports).done = true := hcoreDone.elim (fun hkept => hkept.trans hset) And.left
    rw [hcore, hclear] at hwriteDone
    obtain ⟨_, hcause⟩ := (hwriteDone.resolve_left (by decide)).resolve_left (by simp)
    exact .inr (hcause.imp_left fun herr => ⟨inv_err_false_of_flag hinv (.inr (.inr hset)), herr⟩)

end Sys2Proof.Proofs
end

section
/-! SUPPORT. The proofs of the memory family (20_memory.md): the address map both ways, the accesses that do nothing,
what may be repeated, and the block vectors of the core port. -/

namespace Sys2Proof.Proofs

open Sys2Proof.Machine

/-! ## The address map (R60, R62) -/

/-- A host address selects an offset exactly when it is BASE plus that offset (R60). -/
theorem hostSelect_eq_some_iff (p : Nat) (a : BitVec 8) : hostSelect p = some a ↔ p = hostAddress a := by
  have ha := a.isLt
  unfold hostSelect hostAddress
  split
  · rw [Option.some_inj, ← BitVec.toNat_inj, BitVec.toNat_ofNat]
    omega
  · simp only [reduceCtorEq, false_iff]
    omega

/-- Settles O45: registers and their offsets determine each other, and so do offsets and the host addresses from BASE
on. -/
theorem addressMapIsUnambiguous : Obligations.AddressMapIsUnambiguous :=
  ⟨regAt_offset, fun _ _ => offset_of_regAt, hostSelect_eq_some_iff⟩

/-! ## Addresses where no register answers (R67, R68) -/

/-- No register that a controller of size `z` implements stands at address `a` (R68). -/
def Vacant (z : BlockSize) (a : BitVec 8) : Prop := ∀ r, regAt a = some r → r.implemented z = false

/-- A misaligned address names no register (R67). -/
theorem regAt_of_misaligned {a : BitVec 8} (h : a.toNat % 4 ≠ 0) : regAt a = none := by
  refine if_pos fun hlow => h ?_
  simpa [BitVec.extractLsb'_toNat] using congrArg BitVec.toNat hlow

/-- A misaligned address is vacant in every size (R67). -/
theorem vacant_of_misaligned (z : BlockSize) {a : BitVec 8} (h : a.toNat % 4 ≠ 0) : Vacant z a := by
  intro r hr
  rw [regAt_of_misaligned h] at hr
  cases hr

/-- The offset of a window slot as a number; no window runs over the end of the space (R62). -/
theorem toNat_windowAddr {base : BitVec 8} (h : base.toNat ≤ 0xE0) (k : Fin 8) :
    (windowAddr base k).toNat = base.toNat + 4 * k.val := by
  have hk := k.isLt
  rw [windowAddr, BitVec.toNat_add, BitVec.toNat_ofNat]
  omega

/-- The reserved addresses of R68, as bounds on the offset: the gap below the nonce window, what the block size leaves of
each window, and all beyond the output window. -/
theorem vacant_of_reserved {z : BlockSize} {a : BitVec 8}
    (h : (0x2C ≤ a.toNat ∧ a.toNat < 0x40) ∨ (0x40 + (z.bytes - 4) ≤ a.toNat ∧ a.toNat < 0x60) ∨
      (0x60 + z.bytes ≤ a.toNat ∧ a.toNat < 0x80) ∨ (0x80 + z.bytes ≤ a.toNat ∧ a.toNat < 0xA0) ∨
      0xA0 + z.bytes ≤ a.toNat) : Vacant z a := by
  intro r hr
  rw [offset_of_regAt hr] at h
  obtain ⟨hbytes, hbw, _, hlow, hhigh⟩ := z.facts
  cases r with
  | nonce k | ctrblk k | din k | dout k =>
    rw [Reg.offset, toNat_windowAddr (by decide)] at h
    have hk := k.isLt
    simp only [Reg.implemented, decide_eq_false_iff_not, BitVec.reduceToNat] at h ⊢
    omega
  | _ =>
    simp only [Reg.offset, BitVec.reduceToNat] at h
    omega

/-- A read of a vacant address returns 0 (R67, R68). -/
theorem exec_rd_of_vacant {s : State} {a : BitVec 8} (h : Vacant s.st.size a) :
    exec (.rd a) s = .next (s.setRdata 0) := by
  have hread : busRead s.st a = 0 := by
    unfold busRead
    cases hr : regAt a with
    | none => rfl
    | some r => simp [readReg, h r hr]
  exact congrArg (fun v => Host.Outcome.next (s.setRdata v)) hread

/-! ## Writes that are ignored (R67, R68) -/

/-- An address that names no register has no write row in the opcode table. -/
theorem namedWriteAddr_of_regAt_none : ∀ a : BitVec 8, regAt a = none → namedWriteAddr a = false := by
  decide

/-- The read-only registers have no write row either, nor has any address of the windows CTRBLK and DOUT. -/
theorem namedWriteAddr_of_readOnly : ∀ a : BitVec 8,
    (a.toNat = 0x00 ∨ a.toNat = 0x04 ∨ a.toNat = 0x0C ∨ a.toNat = 0x20 ∨ a.toNat = 0x24 ∨
      (0x60 ≤ a.toNat ∧ a.toNat < 0x80) ∨ 0xA0 ≤ a.toNat) → namedWriteAddr a = false := by
  decide

/-- A write to a window slot of the nonce that is not implemented is ignored (R68). -/
theorem exec_wrNonce_unimplemented {s : State} {k : Fin 8} (h : ¬ k.val < s.st.size.nw) (d : Word) :
    exec (.wrNonce k d) s = .next s := congrArg _ (if_neg h)

/-- A write to a window slot of the input chunk that is not implemented is ignored (R68). -/
theorem exec_wrDin_unimplemented {s : State} {k : Fin 8} (h : ¬ k.val < s.st.size.bw) (d : Word) :
    exec (.wrDin k d) s = .next s := congrArg _ (if_neg h)

/-- A write to a register that the address map calls read-only or reserved is ignored (R62, R68). -/
theorem exec_write_of_access {s : State} {r : Reg} (h : r.access s.st.size = .ro ∨ r.access s.st.size = .reserved)
    (d : Word) : exec (decodeBus ⟨true, r.offset, d⟩) s = .next s := by
  cases r with
  | id | param | status | remainLo | remainHi => exact exec_write_unnamed (by decide) d s
  | ctrblk k | dout k => exact exec_write_unnamed (by clear h; revert k; decide) d s
  | nonce k =>
    have hdecode : decodeBus ⟨true, (Reg.nonce k).offset, d⟩ = .wrNonce k d := Laws.RoundTrip.wrNonce k d rfl
    rw [hdecode]
    exact exec_wrNonce_unimplemented (fun hk => by simp [Reg.access, Reg.implemented, hk] at h) d
  | din k =>
    have hdecode : decodeBus ⟨true, (Reg.din k).offset, d⟩ = .wrDin k d := Laws.RoundTrip.wrDin k d rfl
    rw [hdecode]
    exact exec_wrDin_unimplemented (fun hk => by simp [Reg.access, Reg.implemented, hk] at h) d
  | _ => simp [Reg.access, Reg.implemented] at h

/-- A write to a vacant address is ignored (R67, R68). -/
theorem exec_write_of_vacant {s : State} {a : BitVec 8} (h : Vacant s.st.size a) (d : Word) :
    exec (decodeBus ⟨true, a, d⟩) s = .next s := by
  cases hr : regAt a with
  | none => exact exec_write_unnamed (namedWriteAddr_of_regAt_none a hr) d s
  | some r =>
    rw [offset_of_regAt hr]
    exact exec_write_of_access (.inr (by simp [Reg.access, h r hr])) d

/-! ## Reserved bits (R68) -/

/-- A word whose bits from `n` on are 0 is below 2^n. -/
theorem toNat_lt_of_extractLsb'_eq_zero {w : Word} {n : Nat} (hn : n ≤ 32) (h : w.extractLsb' n (32 - n) = 0) :
    w.toNat < 2 ^ n := by
  have hpos : 0 < 2 ^ n := Nat.two_pow_pos n
  have hlt : w.toNat / 2 ^ n < 2 ^ (32 - n) := by
    rw [Nat.div_lt_iff_lt_mul hpos, ← Nat.pow_add, Nat.sub_add_cancel hn]
    exact w.isLt
  have hdiv : w.toNat / 2 ^ n = 0 := by
    simpa [BitVec.extractLsb'_toNat, Nat.shiftRight_eq_div_pow, Nat.mod_eq_of_lt hlt] using congrArg BitVec.toNat h
  exact (Nat.div_eq_zero_iff_lt hpos).mp hdiv

/-- A register of `n` bits, read as a word, is below 2^n. -/
theorem toNat_setWidth_lt {n : Nat} (v : BitVec n) : (v.setWidth 32).toNat < 2 ^ n := by
  rw [BitVec.toNat_setWidth]
  exact (Nat.mod_le _ _).trans_lt v.isLt

/-- A register of `n` bits takes bits [n-1:0] of the word written, and no others. -/
theorem extractLsb'_zero_and_mask (d : Word) {n : Nat} (hn : n ≤ 32) :
    (d &&& BitVec.ofNat 32 (2 ^ n - 1)).extractLsb' 0 n = d.extractLsb' 0 n := by
  rw [← setWidth_extractLsb'_zero d hn]
  apply BitVec.eq_of_getLsbD_eq
  intro j hj
  simp [hj, show j < 32 by omega]

/-- A CMD word with a reserved bit set is illegal (R92). -/
theorem decodeCmd_of_reserved_bit {d : Word} (h : d.toNat / 16 ≠ 0) : decodeCmd d = .illegal := by
  refine if_pos fun hzero => h ?_
  exact (Nat.div_eq_zero_iff_lt (by decide)).mpr (toNat_lt_of_extractLsb'_eq_zero (n := 4) (by decide) hzero)

/-- Settles O40: a misaligned or reserved address is vacant, whatever is read-only has no write row or no implemented slot,
and a register keeps and shows its own bits only. -/
theorem ignoredAccesses : Obligations.IgnoredAccesses := by
  intro s a d
  have hvacant : Vacant s.st.size a →
      exec (decodeBus ⟨true, a, d⟩) s = .next s ∧ exec (.rd a) s = .next (s.setRdata 0) :=
    fun h => ⟨exec_write_of_vacant h d, exec_rd_of_vacant h⟩
  have hinten : busRead s.st 0x10 = s.st.inten.setWidth 32 := busRead_offset s.st .inten
  have hnonceLen : busRead s.st 0x14 = s.st.nonceLen.setWidth 32 := busRead_offset s.st .nonceLen
  have hstatus : busRead s.st 0x0C = statusWord s.st := busRead_offset s.st .status
  have hparam : busRead s.st 0x04 = paramWord s.st := busRead_offset s.st .param
  obtain ⟨_, _, _, _, hbit7⟩ := getLsbD_statusWord_flags s.st
  obtain ⟨_, _, hparamHigh⟩ := paramWord_fields s.st
  rw [hinten, hnonceLen, hstatus, hparam]
  refine ⟨fun h => hvacant (vacant_of_misaligned _ h), fun h => hvacant (vacant_of_reserved h),
    fun h => exec_write_unnamed (namedWriteAddr_of_readOnly a h) d s, fun r hr h => ?_, rfl, toNat_setWidth_lt _,
    toNat_setWidth_lt _, toNat_lt_of_extractLsb'_eq_zero (by decide) (extractLsb'_statusWord_high s.st), hbit7,
    toNat_lt_of_extractLsb'_eq_zero (by decide) hparamHigh, ?_, ?_, decodeCmd_of_reserved_bit⟩
  · rw [offset_of_regAt hr]
    exact exec_write_of_access h d
  · exact congrArg (fun v => Host.Outcome.next (s.setSt { s.st with inten := v }))
      (extractLsb'_zero_and_mask d (n := 3) (by decide)).symm
  · exact congrArg (fun v => Host.Outcome.next (s.setSt { s.st with nonceLen := v }))
      (extractLsb'_zero_and_mask d (n := 6) (by decide)).symm

/-! ## What may be repeated (R70) -/

/-- Setting a word of a buffer twice to one value is setting it once. -/
theorem setWord_setWord (n : Nat) (buf : Bytes) (k : Nat) (d : Word) :
    setWord n (setWord n buf k d) k d = setWord n buf k d := by
  apply bytes_ext (by simp)
  intro j hj
  rw [length_setWord] at hj
  simp only [byteAt_setWord, if_pos hj]
  split <;> rfl

/-- Instruction `i` answers a next state from `s`, and done again there it changes nothing. -/
def Repeatable (i : Instr) (s : State) : Prop := ∃ t, exec i s = .next t ∧ exec i t = .next t

theorem repeatable_wrMsgLenLo (s : State) (d : Word) : Repeatable (.wrMsgLenLo d) s := by
  have hhigh : (s.st.msgLen.extractLsb' 32 32 ++ d).extractLsb' 32 32 = s.st.msgLen.extractLsb' 32 32 :=
    BitVec.extractLsb'_append_eq_left
  exact ⟨_, rfl, congrArg (fun v => Host.Outcome.next (s.setSt { s.st with msgLen := v ++ d })) hhigh⟩

theorem repeatable_wrMsgLenHi (s : State) (d : Word) : Repeatable (.wrMsgLenHi d) s := by
  have hlow : (d ++ s.st.msgLen.extractLsb' 0 32).extractLsb' 0 32 = s.st.msgLen.extractLsb' 0 32 :=
    BitVec.extractLsb'_append_eq_right
  exact ⟨_, rfl, congrArg (fun v => Host.Outcome.next (s.setSt { s.st with msgLen := d ++ v })) hlow⟩

/-- A write to an implemented slot of the nonce window sets its word (R175). -/
theorem exec_wrNonce_implemented {s : State} {k : Fin 8} (h : k.val < s.st.size.nw) (d : Word) :
    exec (.wrNonce k d) s
      = .next (s.setSt { s.st with nonce := setWord s.st.size.nonceBytes s.st.nonce k.val d }) :=
  congrArg _ (if_pos h)

/-- A write to an implemented slot of the input window sets its word (R175). -/
theorem exec_wrDin_implemented {s : State} {k : Fin 8} (h : k.val < s.st.size.bw) (d : Word) :
    exec (.wrDin k d) s = .next (s.setSt { s.st with din := setWord s.st.size.bytes s.st.din k.val d }) :=
  congrArg _ (if_pos h)

theorem repeatable_wrNonce (s : State) (k : Fin 8) (d : Word) : Repeatable (.wrNonce k d) s := by
  by_cases hk : k.val < s.st.size.nw
  · refine ⟨_, exec_wrNonce_implemented hk d, ?_⟩
    rw [exec_wrNonce_implemented (by exact hk)]
    simp [setWord_setWord]
  · exact ⟨s, exec_wrNonce_unimplemented hk d, exec_wrNonce_unimplemented hk d⟩

theorem repeatable_wrDin (s : State) (k : Fin 8) (d : Word) : Repeatable (.wrDin k d) s := by
  by_cases hk : k.val < s.st.size.bw
  · refine ⟨_, exec_wrDin_implemented hk d, ?_⟩
    rw [exec_wrDin_implemented (by exact hk)]
    simp [setWord_setWord]
  · exact ⟨s, exec_wrDin_unimplemented hk d, exec_wrDin_unimplemented hk d⟩

/-- Settles O41: a read leaves the controller that it reads; a staging write stores a value that does not depend on what
the register held. -/
theorem readsAndStagingWritesAreIdempotent : Obligations.ReadsAndStagingWritesAreIdempotent := by
  intro s i a k d hi
  have hwrite : (∀ b, i ≠ .rd b) → Repeatable i s →
      ∃ t, exec i s = .next t ∧ exec i t = .next t ∧ (i = .rd a → t.st = s.st) :=
    fun hne ⟨t, hfirst, hagain⟩ => ⟨t, hfirst, hagain, fun h => absurd h (hne a)⟩
  rcases hi with rfl | rfl | rfl | rfl | rfl | rfl | rfl
  · exact ⟨s.setRdata (busRead s.st a), rfl, rfl, fun _ => rfl⟩
  · exact hwrite nofun ⟨_, rfl, rfl⟩
  · exact hwrite nofun ⟨_, rfl, rfl⟩
  · exact hwrite nofun (repeatable_wrMsgLenLo s d)
  · exact hwrite nofun (repeatable_wrMsgLenHi s d)
  · exact hwrite nofun (repeatable_wrNonce s k d)
  · exact hwrite nofun (repeatable_wrDin s k d)

/-! ## Block vectors on the core port (R65) -/

/-- A byte sequence as a number, byte 0 the most significant. -/
def bytesNat (b : Bytes) : Nat := b.foldl (fun acc x => acc * 2 ^ 8 + x.toNat) 0

theorem packBlock_eq (b : Bytes) : packBlock b = BitVec.ofNat 256 (bytesNat b) := rfl

theorem bytesNat_append_singleton (b : Bytes) (x : Byte) : bytesNat (b ++ [x]) = bytesNat b * 2 ^ 8 + x.toNat := by
  rw [bytesNat, List.foldl_concat, ← bytesNat]

theorem bytesNat_lt (b : Bytes) : bytesNat b < 2 ^ (8 * b.length) := by
  induction b using List.reverseRecOn with
  | nil => decide
  | append_singleton b x ih =>
    have hx := x.isLt
    rw [bytesNat_append_singleton, List.length_append, List.length_singleton, Nat.mul_succ, Nat.pow_add]
    omega

/-- Byte `j` of a sequence of `n` is digit `n-1-j` in base 2^8 of its number. -/
theorem bytesNat_digit (b : Bytes) {j : Nat} (h : j < b.length) :
    bytesNat b / 2 ^ (8 * (b.length - 1 - j)) % 2 ^ 8 = (byteAt b j).toNat := by
  induction b using List.reverseRecOn with
  | nil => cases h
  | append_singleton b x ih =>
    have hx := x.isLt
    rw [List.length_append, List.length_singleton] at h ⊢
    rw [bytesNat_append_singleton, byteAt_append]
    split
    · rename_i hj
      have hexp : 8 * (b.length + 1 - 1 - j) = 8 + 8 * (b.length - 1 - j) := by omega
      have hdiv : (bytesNat b * 2 ^ 8 + x.toNat) / 2 ^ 8 = bytesNat b := by omega
      rw [hexp, Nat.pow_add, ← Nat.div_div_eq_div_mul, hdiv]
      exact ih hj
    · have hlast : j = b.length := by omega
      subst hlast
      have hexp : 8 * (b.length + 1 - 1 - b.length) = 0 := by omega
      have hbyte : byteAt [x] (b.length - b.length) = x := by simp [byteAt]
      rw [hexp, hbyte, Nat.pow_zero, Nat.div_one]
      omega

/-- Byte `j` of a packed block is bits [8n-1-8j : 8n-8-8j] of the vector (R65). -/
theorem extractLsb'_packBlock {b : Bytes} (hlen : b.length ≤ 32) {j : Nat} (h : j < b.length) :
    (packBlock b).extractLsb' (8 * b.length - 8 - 8 * j) 8 = byteAt b j := by
  have hlt : bytesNat b < 2 ^ 256 := (bytesNat_lt b).trans_le (Nat.pow_le_pow_right (by decide) (by omega))
  have hexp : 8 * b.length - 8 - 8 * j = 8 * (b.length - 1 - j) := by omega
  apply BitVec.eq_of_toNat_eq
  rw [packBlock_eq, BitVec.extractLsb'_toNat, BitVec.toNat_ofNat, Nat.mod_eq_of_lt hlt, Nat.shiftRight_eq_div_pow, hexp]
  exact bytesNat_digit b h

/-- Byte `j` of an unpacked vector is bits [8B-1-8j : 8B-8-8j] of it (R65). -/
theorem byteAt_unpackBlock {B j : Nat} (v : BitVec 256) (h : j < B) :
    byteAt (unpackBlock B v) j = v.extractLsb' (8 * B - 8 - 8 * j) 8 := by
  rw [unpackBlock, byteAt_mkBytes, if_pos h]

/-- A block that is packed and unpacked comes back (R65). -/
theorem unpackBlock_packBlock {b : Bytes} (hlen : b.length ≤ 32) : unpackBlock b.length (packBlock b) = b := by
  apply bytes_ext (length_unpackBlock _ _)
  intro j hj
  rw [length_unpackBlock] at hj
  rw [byteAt_unpackBlock _ hj, extractLsb'_packBlock hlen hj]

/-- Settles O55: packing makes the bytes the digits of a number, byte 0 the highest, and unpacking reads the digits. -/
theorem blockVectorsAreMsbFirst : Obligations.BlockVectorsAreMsbFirst := by
  intro z blk v j hlen hj
  have hle : blk.length ≤ 32 := hlen.trans_le z.bytes_le
  rw [← hlen] at hj ⊢
  exact ⟨extractLsb'_packBlock hle hj, byteAt_unpackBlock v hj, unpackBlock_packBlock hle⟩

end Sys2Proof.Proofs
end

section
/-! SUPPORT. The proofs of the encoding family (30_encoding.md): the round trips between instructions, frames and
numbered bits, the illegal words, a presented frame as a step, and the pseudo-instructions that load a message. -/

namespace Sys2Proof.Proofs

open Sys2Proof.Machine Sys2Proof.Safety

/-! ## From instructions to bits and back (R90, R91, R175) -/

/-- The frame of a well-formed instruction decodes to it, for every constructor. -/
theorem decode_encode {i : Instr} (h : i.wellFormed = true) : decode (encode i) = i := by
  cases i with
  | illegal w => exact Laws.RoundTrip.illegal w h
  | wrNonce k d => exact Laws.RoundTrip.wrNonce k d h
  | wrDin k d => exact Laws.RoundTrip.wrDin k d h
  | wrOther a d => exact Laws.RoundTrip.wrOther a d h
  | _ => rfl

/-- The 41 bits of a bus transaction, read field by field (assumption log 6). -/
theorem busBits_fields (t : BusTxn) :
    (Frame.bus t).bits < 2 ^ 41 ∧ (Frame.bus t).bits.testBit 8 = t.we ∧ BitVec.ofNat 8 (Frame.bus t).bits = t.addr ∧
      BitVec.ofNat 32 ((Frame.bus t).bits >>> 9) = t.data := by
  obtain ⟨we, addr, data⟩ := t
  have haddr := addr.isLt
  have hdata := data.isLt
  have hwe : we.toNat < 2 := we.toNat_lt
  have hbits : (Frame.bus ⟨we, addr, data⟩).bits = addr.toNat + 256 * we.toNat + 512 * data.toNat := rfl
  rw [hbits]
  refine ⟨by omega, ?_, BitVec.eq_of_toNat_eq ?_, BitVec.eq_of_toNat_eq ?_⟩
  · have hdigit : (addr.toNat + 256 * we.toNat + 512 * data.toNat) / 2 ^ 8 % 2 = we.toNat := by omega
    rw [Nat.testBit_eq_decide_div_mod_eq, hdigit]
    cases we <;> rfl
  · show _ = addr.toNat
    rw [BitVec.toNat_ofNat]
    omega
  · show _ = data.toNat
    rw [BitVec.toNat_ofNat, Nat.shiftRight_eq_div_pow]
    omega

/-- The numbered bits of a frame parse to it (assumption log 6). -/
theorem parseFrame_bits (f : Frame) : parseFrame f.nbits f.bits = .ok f := by
  cases f with
  | cmd w => simp [parseFrame, Frame.nbits, Frame.bits, w.isLt]
  | bus t =>
    obtain ⟨hlt, hwe, haddr, hdata⟩ := busBits_fields t
    have hlength : ¬ (48 = 8 ∨ 48 = 32) := by decide
    rw [parseFrame, Frame.nbits, if_neg hlength, if_pos (.inr rfl), if_neg (by decide : ¬ 48 = 16), if_pos hlt, hwe,
      haddr, hdata]

/-- Settles O1: the bits of the encoded frame parse to that frame, which decodes to the instruction. -/
theorem decodeOfEncodeIsIdentity : Obligations.DecodeOfEncodeIsIdentity := by
  intro i hi
  rw [decodeTableWord, parseFrame_bits]
  exact congrArg some (decode_encode hi)

/-! ## From frames to instructions and back (R90, R93) -/

/-- R92's test in numbers. -/
theorem illegalWord_iff (w : Word) : illegalWord w = true ↔ 6 ≤ w.toNat % 16 ∨ w.toNat / 16 ≠ 0 := by
  have hw := w.isLt
  have hopcode : (w.extractLsb' 0 4).toNat = w.toNat % 16 := by simp [BitVec.extractLsb'_toNat]
  have hrsvd : (w.extractLsb' 4 28).toNat = w.toNat / 16 := by
    rw [BitVec.extractLsb'_toNat, Nat.shiftRight_eq_div_pow]
    omega
  rw [illegalWord, Bool.or_eq_true, decide_eq_true_eq, bne_iff_ne, ne_eq, ← BitVec.toNat_inj, hopcode, hrsvd]
  rfl

/-- Only the words of R92 decode to no command. -/
theorem illegalWord_of_decodeCmd {w : Word} (h : decodeCmd w = .illegal) : illegalWord w = true := by
  rw [illegalWord, Bool.or_eq_true, decide_eq_true_eq, bne_iff_ne]
  unfold decodeCmd at h
  split at h
  · exact .inr ‹_›
  · refine .inl ?_
    match (w.extractLsb' 0 4).toNat, h with
    | n + 6, _ => exact Nat.le_add_left 6 n

theorem decodeCmd_eq_illegal_iff (w : Word) : decodeCmd w = .illegal ↔ illegalWord w = true :=
  ⟨illegalWord_of_decodeCmd, Laws.RoundTrip.decodeCmd_of_illegalWord⟩

/-- A command word decodes to a well-formed instruction whose frame it is (R91, R93). -/
theorem decodeCmd_roundTrip (w : Word) :
    ((decodeCmd w).instr w).wellFormed = true ∧ encode ((decodeCmd w).instr w) = .cmd w := by
  obtain ⟨hnop, hinit, hinc, hstart, hblock, habort⟩ := word_of_decodeCmd (rfl : decodeCmd w = _)
  cases hm : decodeCmd w with
  | nop => exact ⟨rfl, hnop hm ▸ rfl⟩
  | init => exact ⟨rfl, hinit hm ▸ rfl⟩
  | inc => exact ⟨rfl, hinc hm ▸ rfl⟩
  | start => exact ⟨rfl, hstart hm ▸ rfl⟩
  | block => exact ⟨rfl, hblock hm ▸ rfl⟩
  | abort => exact ⟨rfl, habort hm ▸ rfl⟩
  | illegal => exact ⟨illegalWord_of_decodeCmd hm, rfl⟩

/-- An address that the masks of the opcode table put in a write window is that of its slot (R175). -/
theorem windowAddr_slotOf : ∀ a : BitVec 8,
    (a &&& 0xE3 = 0x40 → windowAddr 0x40 (slotOf a) = a) ∧ (a &&& 0xE3 = 0x80 → windowAddr 0x80 (slotOf a) = a) := by
  decide

/-- A bus write decodes to a well-formed instruction whose frame it is, whatever row its address selects (R175). -/
theorem decodeWrite_roundTrip (a : BitVec 8) (d : Word) :
    (decodeWrite a d).wellFormed = true ∧ encode (decodeWrite a d) = .bus ⟨true, a, d⟩ := by
  obtain ⟨hnonce, hdin⟩ := windowAddr_slotOf a
  unfold decodeWrite
  split_ifs with h08 h10 h14 h18 h1C h28 h40 h80
  · exact ⟨rfl, h08 ▸ rfl⟩
  · exact ⟨rfl, h10 ▸ rfl⟩
  · exact ⟨rfl, h14 ▸ rfl⟩
  · exact ⟨rfl, h18 ▸ rfl⟩
  · exact ⟨rfl, h1C ▸ rfl⟩
  · exact ⟨rfl, h28 ▸ rfl⟩
  · exact ⟨rfl, congrArg (fun b => Frame.bus ⟨true, b, d⟩) (hnonce h40)⟩
  · exact ⟨rfl, congrArg (fun b => Frame.bus ⟨true, b, d⟩) (hdin h80)⟩
  · refine ⟨?_, rfl⟩
    simp only [Instr.wellFormed, namedWriteAddr, Bool.not_eq_true', Bool.or_eq_false_iff, beq_eq_false_iff_ne]
    exact ⟨⟨⟨⟨⟨⟨⟨h08, h10⟩, h14⟩, h18⟩, h1C⟩, h28⟩, h40⟩, h80⟩

/-- Settles O2: a command word and a write are kept in full; a read keeps its address. -/
theorem encodeOfDecodeIsFrame : Obligations.EncodeOfDecodeIsFrame := by
  intro f
  match f with
  | .cmd w => exact decodeCmd_roundTrip w
  | .bus ⟨true, a, d⟩ => exact decodeWrite_roundTrip a d
  | .bus ⟨false, _, _⟩ => exact ⟨rfl, rfl⟩

/-- Settles O4: the decoder computes each of these words. -/
theorem wordsDecodeAsTheTablesSay : Obligations.WordsDecodeAsTheTablesSay := by
  unfold Obligations.WordsDecodeAsTheTablesSay
  decide

/-! ## Words written to CMD (R92, R93, R210) -/

/-- Settles O36: the write and the decoded command have one meaning, and it answers a next state. -/
theorem cmdWriteRunsTheDecodedCommand : Obligations.CmdWriteRunsTheDecodedCommand :=
  fun w s => ⟨execState (.wrCmd w) s, exec_next _ s, (execWrCmd_eq w s).symm.trans (exec_next (.wrCmd w) s)⟩

/-- An illegal word raises ILLEGAL_CMD in IDLE, READY and BUSY, where no error is recorded (R92, R209). -/
theorem exec_illegal_of_not_deaf {s : State} (hinv : Inv s.st) (h : s.st.deaf = false) (w : Word) :
    exec (.illegal w) s = .next (s.setSt (errorState .illegalCmd s.st)) := by
  have herr : s.st.err = false := by
    by_contra he
    simp [hinv.err_where (by simpa using he)] at h
  rw [← Controller.raiseError_eq_errorState herr]
  simp [exec, execIllegal, h]

/-- An illegal word is ignored in ERROR and DRAIN (R92, R173). -/
theorem exec_illegal_of_deaf {s : State} (h : s.st.deaf = true) (w : Word) : exec (.illegal w) s = .next s := by
  simp [exec, execIllegal, h]

/-- Settles O3: written to CMD or issued alone, an illegal word does what its instruction does, by the controller's
state. -/
theorem illegalWordsRaiseOrAreIgnored : Obligations.IllegalWordsRaiseOrAreIgnored := by
  intro w s hinv
  refine ⟨(decodeCmd_eq_illegal_iff w).trans (illegalWord_iff w), fun hw => ?_⟩
  have hwrite : exec (.wrCmd w) s = exec (.illegal w) s := by
    refine (execWrCmd_eq w s).trans ?_
    rw [hw, Cmd.instr]
  rw [hwrite, and_self, and_self, ← Controller.deaf_eq_false_iff, ← Controller.deaf_eq_true_iff]
  exact ⟨fun h => exec_illegal_of_not_deaf hinv h w, fun h => exec_illegal_of_deaf h w⟩

/-! ## A presented frame (R40, R90) -/

/-- The transaction that carries a frame does what the frame's instruction does. -/
theorem exec_decodeBus_txn (f : Frame) (s : State) : exec (decodeBus f.txn) s = exec (decode f) s := by
  cases f with
  | cmd w => exact execWrCmd_eq w s
  | bus t => rfl

/-- A core that neither accepts nor answers leaves the controller alone (R40). -/
theorem corePhase_quiet (c : Controller) {p : Ports} (hready : p.coreReqReady = false)
    (hvalid : p.coreRspValid = false) : c.corePhase p = c := by
  simp [Controller.corePhase, hready, hvalid]

@[simp] theorem portsWithTxn_busAddr (p : Ports) (t : BusTxn) : (portsWithTxn p t).busAddr = t.addr := rfl
@[simp] theorem portsWithTxn_busWdata (p : Ports) (t : BusTxn) : (portsWithTxn p t).busWdata = t.data := rfl

theorem execState_rd (a : BitVec 8) (s : State) : execState (.rd a) s = s.setRdata (busRead s.st a) := rfl

/-- In the cycle of a presented frame its transaction runs and nothing else happens (R40). -/
theorem cycleState_presentFrame (s : State) (f : Frame) :
    cycleState (s.presentFrame f) = execState (decodeBus f.txn) ((s.presentFrame f).setRdata 0) := by
  have hports : (s.presentFrame f).ports = portsWithTxn s.ports f.txn := rfl
  have hcore (v : Word) : ((s.presentFrame f).setRdata v).setSt
      ((s.presentFrame f).st.corePhase (portsWithTxn s.ports f.txn)) = (s.presentFrame f).setRdata v := by
    rw [corePhase_quiet _ rfl rfl]
    rfl
  rw [cycleState, cycleRdata, cycleWrite, hports, hcore, decodeBus]
  cases hwe : f.txn.we with
  | true => simp [hwe]
  | false => simp [hwe, execState_rd]

/-- A bit string that decodes is the bits of a frame, and that frame is presented. -/
theorem frame_of_decodeTableWord {nbits w : Nat} {i : Instr} (h : decodeTableWord nbits w = some i) (s : State) :
    ∃ f, decode f = i ∧ s.withFetchWord nbits w = s.presentFrame f := by
  unfold decodeTableWord at h
  unfold State.withFetchWord State.presentWord
  cases hf : parseFrame nbits w with
  | ok f => exact ⟨f, by simpa [hf] using h, rfl⟩
  | error r => simp [hf] at h

/-- Settles O5: the cycle of the presented frame runs its transaction, whose meaning is the decoded instruction's. -/
theorem stepRunsThePresentedInstruction : Obligations.StepRunsThePresentedInstruction := by
  intro s nbits w i hi
  obtain ⟨f, rfl, hpresent⟩ := frame_of_decodeTableWord hi s
  rw [hpresent]
  refine ⟨execState (decodeBus f.txn) ((s.presentFrame f).setRdata 0), ?_, ?_, ?_⟩
  · rw [← exec_decodeBus_txn]
    exact exec_next _ _
  · rw [step_eq, cycleState_presentFrame]
  · rw [State.endCycle_inputs, execState_inputs]
    rfl

/-! ## Pseudo-instructions (R101) -/

/-- The items of two lists one after the other. -/
theorem runItems_append {xs ys : List ScriptItem} {s t : State} (h : runItems xs s = .next t) :
    runItems (xs ++ ys) s = runItems ys t := by
  induction xs generalizing s with
  | nil =>
    cases h
    rfl
  | cons x xs ih =>
    rw [List.cons_append, runItems]
    rw [runItems] at h
    cases hx : x.txn with
    | none =>
      rw [hx] at h
      exact ih h
    | some b =>
      simp only [hx, exec_next, andThen] at h ⊢
      exact ih h

/-- A `WR` line first: its write, then the rest. -/
theorem runItems_wr {r : Reg} {v : Word} {s t : State} (its : List ScriptItem)
    (h : exec (decodeBus ⟨true, r.offset, v⟩) s = .next t) : runItems (.line (.wr r v) :: its) s = runItems its t :=
  congrArg (andThen · (runItems its)) h

/-- A buffer of `n` bytes with its first `m` words set to those of a list, a missing one to 0. -/
def setWords (n : Nat) (ws : List Word) (buf : Bytes) : Nat → Bytes
  | 0 => buf
  | m + 1 => setWord n (setWords n ws buf m) m (ws.getD m 0)

theorem length_setWords {n : Nat} {buf : Bytes} (h : buf.length = n) (ws : List Word) (m : Nat) :
    (setWords n ws buf m).length = n := by
  cases m with
  | zero => exact h
  | succ m => exact length_setWord n _ m _

theorem wordAt_setWords {n m k : Nat} (ws : List Word) (buf : Bytes) (hm : 4 * m ≤ n) (hk : k < m) :
    wordAt (setWords n ws buf m) k = ws.getD k 0 := by
  induction m with
  | zero => cases hk
  | succ m ih =>
    rw [setWords]
    by_cases hlast : k = m
    · subst hlast
      exact wordAt_setWord_self _ _ (by omega)
    · rw [wordAt_setWord_ne _ _ (by omega) hlast]
      exact ih (by omega) (by omega)

/-- Writing the first slots of a window sets the first words of its buffer. `upd` is the state with a given buffer, in
which a write to a slot `k < m` sets word `k`. -/
theorem runItems_wrWindow {mk : Fin 8 → Reg} {n m : Nat} {upd : Bytes → State} (hm : m ≤ 8)
    (hwrite : ∀ (k : Fin 8) (buf : Bytes) (d : Word), k.val < m →
      exec (decodeBus ⟨true, (mk k).offset, d⟩) (upd buf) = .next (upd (setWord n buf k.val d)))
    (ws : List Word) (buf : Bytes) :
    runItems (wrWindow mk m ws) (upd buf) = .next (upd (setWords n ws buf m)) := by
  induction m with
  | zero => rfl
  | succ m ih =>
    have hslot : (Fin.ofNat 8 m).val = m := Nat.mod_eq_of_lt hm
    have hlast := hwrite (Fin.ofNat 8 m) (setWords n ws buf m) (ws.getD m 0) (by omega)
    rw [hslot] at hlast
    have hsplit : wrWindow mk (m + 1) ws
        = wrWindow mk m ws ++ [.line (.wr (mk (Fin.ofNat 8 m)) (ws.getD m 0))] := by
      rw [wrWindow, List.range_succ, List.map_append]
      rfl
    rw [hsplit, runItems_append (ih (by omega) fun k buf d hk => hwrite k buf d (by omega)), runItems_wr [] hlast]
    rfl

/-- The lines for the nonce window set the nonce's words. -/
theorem runItems_wrWindow_nonce (s : State) (ws : List Word) :
    runItems (wrWindow .nonce s.st.size.nw ws) s
      = .next (s.setSt { s.st with nonce := setWords s.st.size.nonceBytes ws s.st.nonce s.st.size.nw }) := by
  obtain ⟨_, _, _, _, hnw⟩ := s.st.size.facts
  refine runItems_wrWindow (upd := fun b => s.setSt { s.st with nonce := b }) (by omega) (fun k buf d hk => ?_) ws _
  have hdecode : decodeBus ⟨true, (Reg.nonce k).offset, d⟩ = .wrNonce k d := Laws.RoundTrip.wrNonce k d rfl
  rw [hdecode]
  exact exec_wrNonce_implemented (s := s.setSt { s.st with nonce := buf }) hk d

/-- The lines for the input window set the words of the input chunk. -/
theorem runItems_wrWindow_din (s : State) (ws : List Word) :
    runItems (wrWindow .din s.st.size.bw ws) s
      = .next (s.setSt { s.st with din := setWords s.st.size.bytes ws s.st.din s.st.size.bw }) := by
  obtain ⟨_, hbw, _, _, hnw⟩ := s.st.size.facts
  refine runItems_wrWindow (upd := fun b => s.setSt { s.st with din := b }) (by omega) (fun k buf d hk => ?_) ws _
  have hdecode : decodeBus ⟨true, (Reg.din k).offset, d⟩ = .wrDin k d := Laws.RoundTrip.wrDin k d rfl
  rw [hdecode]
  exact exec_wrDin_implemented (s := s.setSt { s.st with din := buf }) hk d

/-- WR64 writes both halves of MSG_LEN (R101). -/
theorem runItems_wr64 (s : State) (v : BitVec 64) :
    runItems (expandWr64 v) s = .next (s.setSt { s.st with msgLen := v }) := by
  have hlow : (s.st.msgLen.extractLsb' 32 32 ++ v.extractLsb' 0 32).extractLsb' 0 32 = v.extractLsb' 0 32 :=
    BitVec.extractLsb'_append_eq_right
  have hjoin : v.extractLsb' 32 32 ++ v.extractLsb' 0 32 = v := by
    rw [BitVec.extractLsb'_append_extractLsb'_eq_extractLsb' (by decide)]
    exact BitVec.extractLsb'_eq_self
  have hset : v.extractLsb' 32 32 ++ (s.st.msgLen.extractLsb' 32 32 ++ v.extractLsb' 0 32).extractLsb' 0 32 = v := by
    rw [hlow, hjoin]
  exact congrArg (fun x => Host.Outcome.next (s.setSt { s.st with msgLen := x })) hset

/-- LDNONCE writes NONCE_LEN and then the nonce window (R101). -/
theorem runItems_ldNonce (s : State) (ws : List Word) :
    runItems ((Pseudo.ldNonce ws).expand s.st.size) s
      = .next (s.setSt { s.st with
        nonceLen := BitVec.ofNat 6 (s.st.size.bytes - 4)
        nonce := setWords s.st.size.nonceBytes ws s.st.nonce s.st.size.nw }) := by
  have hvalue : (BitVec.ofNat 32 s.st.size.nonceBytes).extractLsb' 0 6 = BitVec.ofNat 6 (s.st.size.bytes - 4) := by
    cases s.st.size <;> rfl
  have hlength : exec (decodeBus ⟨true, Reg.nonceLen.offset, BitVec.ofNat 32 s.st.size.nonceBytes⟩) s
      = .next (s.setSt { s.st with nonceLen := BitVec.ofNat 6 (s.st.size.bytes - 4) }) :=
    congrArg (fun x => Host.Outcome.next (s.setSt { s.st with nonceLen := x })) hvalue
  refine (runItems_wr _ hlength).trans ?_
  exact runItems_wrWindow_nonce (s.setSt { s.st with nonceLen := BitVec.ofNat 6 (s.st.size.bytes - 4) }) ws

/-- Settles O60: each line is one staging write, and the writes of a window set its words one after the other. -/
theorem loadPseudoInstructionsLoad : Obligations.LoadPseudoInstructionsLoad := by
  intro s ws v hinv
  exact ⟨runItems_wr64 s v,
    ⟨_, runItems_ldNonce s ws, length_setWords hinv.sized.nonce ws s.st.size.nw,
      fun _ => wordAt_setWords ws _ (four_mul_nw_le s.st.size)⟩,
    ⟨_, runItems_wrWindow_din s ws, length_setWords hinv.sized.din ws s.st.size.bw,
      fun _ => wordAt_setWords ws _ (four_mul_bw_le s.st.size)⟩⟩

end Sys2Proof.Proofs
end

section
/-! SUPPORT. The proofs of the counter family (40_counter.md): the counter block byte by byte, INIT, INC and the CTR
write, the counter registers, and what writes the nonce bytes. -/

namespace Sys2Proof.Proofs

open Sys2Proof.Machine Sys2Proof.Safety

/-! ## The counter block (R111, R114, R115) -/

/-- A block has room for the four bytes of the counter integer (R6). -/
theorem counterBytes_le (z : BlockSize) : 4 ≤ z.bytes := le_trans (by decide) z.four_le_bytes

/-- A block with a new counter integer is its first B-4 bytes and then the four bytes of the integer (R10). -/
theorem setCtr_eq_append {B : Nat} (hB : 4 ≤ B) {blk : Bytes} (hlen : B - 4 ≤ blk.length) (v : Word) :
    setCtr B blk v = blk.take (B - 4) ++ be32enc v := by
  have hprefix : (blk.take (B - 4)).length = B - 4 := List.length_take_of_le hlen
  apply bytes_ext
  · rw [length_setCtr, List.length_append, hprefix, be32enc, length_mkBytes]
    omega
  · intro j hj
    rw [length_setCtr] at hj
    rw [byteAt_setCtr, if_pos hj, byteAt_append, hprefix]
    split
    next hlow => rw [byteAt_take hlow]
    next hhigh => rw [be32enc, byteAt_mkBytes, if_pos (by omega)]

/-- Settles O13: the initial counter block is `setctr(nonce, 1)`, and `BE32enc(1)` is 00 00 00 01. -/
theorem initCounterIsNonceThenOne : Obligations.InitCounterIsNonceThenOne := by
  intro z nonce hlen
  have hB := counterBytes_le z
  refine ⟨?_, ctrOf_setCtr hB nonce 1, take_initCounter hlen⟩
  rw [initCounter, setCtr_eq_append hB hlen.ge, List.take_of_length_le hlen.le]
  rfl

/-- The increment adds 1 modulo 2^32 to the counter integer (R114). -/
theorem toNat_ctrOf_incCounter {B : Nat} (hB : 4 ≤ B) (blk : Bytes) :
    (ctrOf B (incCounter B blk)).toNat = ((ctrOf B blk).toNat + 1) % 2 ^ 32 := by
  have hone : (1 : Word).toNat = 1 := rfl
  rw [incCounter, ctrOf_setCtr hB, BitVec.toNat_add, hone]

/-- The increment keeps the nonce bytes (R114). -/
theorem take_incCounter {B : Nat} {blk : Bytes} (hlen : blk.length = B) :
    (incCounter B blk).take (B - 4) = blk.take (B - 4) :=
  take_setCtr (hlen ▸ Nat.sub_le _ _) _

/-- Settles O15: the addition on words is modulo 2^32, and only the integer is set. -/
theorem incCounterAddsOneModulo : Obligations.IncCounterAddsOneModulo := fun z blk hlen =>
  ⟨toNat_ctrOf_incCounter (counterBytes_le z) blk, take_incCounter hlen, length_incCounter z.bytes blk⟩

/-- `N` increments add `N` modulo 2^32 to the counter integer (R115). -/
theorem toNat_ctrOf_iterate_incCounter {B : Nat} (hB : 4 ≤ B) (blk : Bytes) (N : Nat) :
    (ctrOf B ((incCounter B)^[N] blk)).toNat = ((ctrOf B blk).toNat + N) % 2 ^ 32 := by
  induction N with
  | zero => rw [Function.iterate_zero_apply, Nat.add_zero, Nat.mod_eq_of_lt (ctrOf B blk).isLt]
  | succ N ih =>
    rw [Function.iterate_succ_apply', toNat_ctrOf_incCounter hB, ih, Nat.mod_add_mod, Nat.add_assoc]

/-- `N` increments keep the nonce bytes (R115). -/
theorem take_iterate_incCounter {B : Nat} {blk : Bytes} (hlen : blk.length = B) (N : Nat) :
    ((incCounter B)^[N] blk).take (B - 4) = blk.take (B - 4) := by
  induction N generalizing blk with
  | zero => rfl
  | succ N ih =>
    rw [Function.iterate_succ_apply, ih (length_incCounter B blk), take_incCounter hlen]

/-- Settles O16, by induction on the number of increments. -/
theorem iteratedIncrementAddsCount : Obligations.IteratedIncrementAddsCount := by
  intro z blk nonce N hblk _
  have hB := counterBytes_le z
  refine ⟨toNat_ctrOf_iterate_incCounter hB blk N, take_iterate_incCounter hblk N, ?_⟩
  have hone : (ctrOf z.bytes (initCounter z.bytes nonce)).toNat = 1 :=
    congrArg BitVec.toNat (ctrOf_setCtr hB nonce 1)
  rw [toNat_ctrOf_iterate_incCounter hB, hone]

/-! ## INIT, INC and the CTR write (R110, R113, R116, R210) -/

/-- Error entry in a state with the invariants that listens to commands leaves the state that R209 lists. -/
theorem raiseError_of_listening {c : Controller} (h : Inv c) (hd : c.deaf = false) (code : ErrCode) :
    c.raiseError code = errorState code c :=
  Controller.raiseError_eq_errorState (inv_err_false h hd) code

section
variable {i : Instr} {s : State} {ok : Bool} {run : Controller → Controller}

/-- A guarded instruction that is legal follows its own rule. -/
theorem exec_guarded_of_legal (hexec : exec i s = .next (s.setSt (s.st.guarded ok run))) (hd : s.st.deaf = false)
    (hok : ok = true) : exec i s = .next (s.setSt (run s.st)) := by
  rw [hexec, hok, Controller.guarded_ok hd]

/-- A guarded instruction that is not legal raises SEQUENCE in IDLE, READY and BUSY. -/
theorem exec_guarded_of_not_legal (hexec : exec i s = .next (s.setSt (s.st.guarded ok run))) (hinv : Inv s.st)
    (hd : s.st.deaf = false) (hok : ok = false) : exec i s = .next (s.setSt (errorState .sequence s.st)) := by
  rw [hexec, hok, Controller.guarded_illegal hd, raiseError_of_listening hinv hd]

/-- A guarded instruction has no effect in ERROR and DRAIN (R173). -/
theorem exec_guarded_of_deaf (hexec : exec i s = .next (s.setSt (s.st.guarded ok run))) (hd : s.st.deaf = true) :
    exec i s = .next s := by
  rw [hexec, Controller.guarded_deaf hd, State.setSt_self]

end

/-- In IDLE the controller listens to commands. -/
theorem deaf_false_of_idle {c : Controller} (hi : c.state = .idle) : c.deaf = false :=
  c.deaf_eq_false_iff.mpr (.inl hi)

/-- INIT's own rule with the nonce length of this block size (R110, R112). -/
theorem runInit_of_nonceLen {c : Controller} (h : c.nonceLen.toNat = c.size.nonceBytes) :
    c.runInit = { c with ctrblk := initCounter c.size.bytes c.nonce, ctrv := true } := if_neg (not_not.mpr h)

/-- INIT's own rule with another nonce length (R110, R112). -/
theorem runInit_of_nonceLen_ne {c : Controller} (h : c.nonceLen.toNat ≠ c.size.nonceBytes) :
    c.runInit = c.raiseError .invalidNonceLength := if_pos h

/-- Settles O12: INIT is legal in IDLE, where its own rule checks the nonce length, and not in READY and BUSY. -/
theorem initSeedsCounterOrRaises : Obligations.InitSeedsCounterOrRaises := by
  refine ⟨rfl, fun s hinv => ⟨fun hidle hlen => ?_, fun hidle hlen => ?_, fun hbusy => ?_⟩⟩
  · rw [exec_guarded_of_legal (i := .init) rfl (deaf_false_of_idle hidle) (decide_eq_true hidle),
      runInit_of_nonceLen hlen]
  · have hd := deaf_false_of_idle hidle
    rw [exec_guarded_of_legal (i := .init) rfl hd (decide_eq_true hidle), runInit_of_nonceLen_ne hlen,
      raiseError_of_listening hinv hd]
  · refine exec_guarded_of_not_legal (i := .init) rfl hinv (s.st.deaf_eq_false_iff.mpr (.inr hbusy)) ?_
    rcases hbusy with h | h <;> simp [legal, h]

/-- INC, and a CTR write with it, is legal in IDLE with CTRV = 1 (R210). -/
theorem legal_inc {c : Controller} (hidle : c.state = .idle) (hv : c.ctrv = true) : legal .inc c = true := by
  simp [legal, hidle, hv]

/-- In IDLE with CTRV = 0, in READY and in BUSY it is not legal, and the controller listens (R210). -/
theorem not_legal_inc {c : Controller}
    (h : c.state = .idle ∧ c.ctrv = false ∨ c.state = .ready ∨ c.state = .busy) :
    c.deaf = false ∧ legal .inc c = false := by
  rcases h with ⟨h, hv⟩ | h | h <;> simp [Controller.deaf, legal, *]

/-- Settles O14: INC's own rule runs where it is legal. -/
theorem incIncrementsOrRaises : Obligations.IncIncrementsOrRaises := by
  refine ⟨rfl, fun s hinv => ⟨fun hidle hv => ?_, fun h => ?_⟩⟩
  · exact exec_guarded_of_legal (i := .inc) rfl (deaf_false_of_idle hidle) (legal_inc hidle hv)
  · obtain ⟨hd, hl⟩ := not_legal_inc h
    exact exec_guarded_of_not_legal (i := .inc) rfl hinv hd hl

/-- A new counter integer keeps the nonce bytes of the counter block (R10, R41 (i)). -/
theorem take_setCtr_ctrblk {c : Controller} (h : Inv c) (v : Word) :
    (setCtr c.size.bytes c.ctrblk v).take (c.size.bytes - 4) = counterPrefix c :=
  take_setCtr (h.sized.ctrblk ▸ Nat.sub_le _ _) v

/-- Settles O17: the CTR write has the legality of INC, and what it loads is the trailing integer alone. -/
theorem ctrWriteLoadsOrRaises : Obligations.CtrWriteLoadsOrRaises := by
  intro s d hinv
  have hB := counterBytes_le s.st.size
  refine ⟨rfl, fun hidle hv => ?_, fun h => ?_, fun hdeaf => ?_, ctrOf_setCtr hB _ d, take_setCtr_ctrblk hinv d⟩
  · exact exec_guarded_of_legal (i := .wrCtr d) rfl (deaf_false_of_idle hidle) (legal_inc hidle hv)
  · obtain ⟨hd, hl⟩ := not_legal_inc h
    exact exec_guarded_of_not_legal (i := .wrCtr d) rfl hinv hd hl
  · exact exec_guarded_of_deaf (i := .wrCtr d) rfl (s.st.deaf_eq_true_iff.mpr hdeaf)

/-! ## The counter registers (R117) -/

/-- CTR reads the counter integer. -/
theorem busRead_ctr (c : Controller) : busRead c 0x28 = ctrOf c.size.bytes c.ctrblk := busRead_offset c .ctr

/-- CTRBLKk reads word k of the counter block, and 0 where it is not implemented. -/
theorem busRead_ctrblk (c : Controller) (k : Fin 8) :
    busRead c (0x60 + 4 * BitVec.ofNat 8 k.val) = if k.val < c.size.bw then wordAt c.ctrblk k.val else 0 := by
  rw [windowAddr_eq]
  refine (busRead_offset c (.ctrblk k)).trans ?_
  by_cases h : k.val < c.size.bw <;> simp [readReg, Reg.implemented, h]

/-- Error entry with no error recorded clears the counter block (R209). -/
theorem raiseError_ctrblk {c : Controller} (h : c.err = false) (code : ErrCode) :
    (c.raiseError code).ctrblk = zeroBytes c.size.bytes := by
  rw [Controller.raiseError_of_no_err h, Controller.discardWork_ctrblk]

/-- A cleared counter block reads 0 in all its registers. -/
theorem busRead_of_cleared {d : Controller} {n : Nat} (h : d.ctrblk = zeroBytes n) (k : Fin 8) :
    busRead d 0x28 = 0 ∧ busRead d (0x60 + 4 * BitVec.ofNat 8 k.val) = 0 := by
  rw [busRead_ctr, busRead_ctrblk, h, ctrOf_zeroBytes, wordAt_zeroBytes, ite_self]
  exact ⟨rfl, rfl⟩

/-- Settles O18: the registers read the counter block, which reset, error entry and ABORT clear. -/
theorem counterRegistersRead : Obligations.CounterRegistersRead := by
  intro c k
  refine ⟨busRead_ctr c, busRead_ctrblk c k, fun hlast => ?_, fun d hd => ?_, fun s a => ⟨_, rfl, rfl⟩⟩
  · obtain ⟨hbytes, hbw, _⟩ := c.size.facts
    have hk : k.val + 1 = c.size.bw := hlast
    rw [busRead_ctr, busRead_ctrblk, if_pos (by omega), ctrOf_eq_wordAt (k := k.val) (by omega)]
  · have hcleared : d.ctrblk = zeroBytes c.size.bytes := by
      rcases hd with rfl | ⟨code, herr, rfl⟩ | rfl
      · rfl
      · exact raiseError_ctrblk herr code
      · rfl
    exact busRead_of_cleared hcleared k

/-! ## The nonce bytes of the counter block (R41 (i), R118) -/

/-- A cleared counter block has the nonce bytes 0. -/
theorem counterPrefix_of_cleared {c : Controller} (h : c.ctrblk = zeroBytes c.size.bytes) :
    counterPrefix c = zeroBytes c.size.nonceBytes := by
  rw [counterPrefix, h]
  exact take_zeroBytes (Nat.sub_le c.size.bytes 4)

/-- What the host's write in a cycle with ports `p` does to the nonce bytes, with the command behind each change. -/
inductive PrefixEffect (p : Ports) (c d : Controller) : Prop where
  | kept (hprefix : counterPrefix d = counterPrefix c) (herr : d.err = c.err)
  | error (hprefix : counterPrefix d = zeroBytes c.size.nonceBytes) (hclear : c.err = false) (herr : d.err = true)
  | seed (hw : writes p 0x08 1 ∨ writes p 0x08 3) (hprefix : counterPrefix d = c.nonce) (hctrv : d.ctrv = true)
  | abort (hw : writes p 0x08 5) (hprefix : counterPrefix d = zeroBytes c.size.nonceBytes)

/-- Error entry clears the nonce bytes (R209). -/
theorem prefixEffect_raiseError {c : Controller} (h : Inv c) (hd : c.deaf = false) (p : Ports) (code : ErrCode) :
    PrefixEffect p c (c.raiseError code) := by
  rw [raiseError_of_listening h hd]
  exact .error (counterPrefix_of_cleared rfl) (inv_err_false h hd) rfl

/-- A command written to CMD has one of the effects on the nonce bytes. -/
theorem prefixEffect_command {p : Ports} {w : Word} {c d : Controller} (h : Inv c) (hw : writes p 0x08 w)
    (e : CommandEffect w c d) : PrefixEffect p c d := by
  cases e with
  | same hd => subst hd; exact .kept rfl rfl
  | error code _ hdeaf hd => subst hd; exact prefixEffect_raiseError h hdeaf p code
  | init hword _ _ hd => subst hword hd; exact .seed (.inl hw) (take_initCounter h.sized.nonce) rfl
  | inc _ _ _ hd => subst hd; exact .kept (take_setCtr_ctrblk h _) rfl
  | start hword _ _ _ hd => subst hword hd; exact .seed (.inr hw) (take_initCounter h.sized.nonce) rfl
  | block _ _ hd => subst hd; exact .kept rfl rfl
  | abort hword hd => subst hword hd; exact .abort hw (counterPrefix_of_cleared rfl)

/-- The host's write in a cycle has one of the effects on the nonce bytes. -/
theorem prefixEffect_write {p : Ports} {c d : Controller} (h : Inv c) (e : WriteEffect p c d) : PrefixEffect p c d := by
  cases e with
  | staging _ _ _ _ _ hd => subst hd; exact .kept rfl rfl
  | ctr v _ _ _ hd => subst hd; exact .kept (take_setCtr_ctrblk h v) rfl
  | ctrError _ _ hdeaf hd => subst hd; exact prefixEffect_raiseError h hdeaf p .sequence
  | command w hw hd => exact prefixEffect_command h hw hd

/-- The core's part keeps the nonce bytes, unless a response with an error clears them (R150, R151). -/
theorem corePhase_prefix {c : Controller} (h : Inv c) (p : Ports) :
    (counterPrefix (c.corePhase p) = counterPrefix c ∧ (c.corePhase p).err = c.err) ∨
      (counterPrefix (c.corePhase p) = zeroBytes c.size.nonceBytes ∧ c.err = false ∧ (c.corePhase p).err = true) := by
  cases corePhase_effect h p with
  | same hd _ _ => rw [hd]; exact .inl ⟨rfl, rfl⟩
  | accept hd _ _ _ _ => rw [hd]; exact .inl ⟨rfl, rfl⟩
  | complete hd _ _ _ _ _ => rw [hd]; exact .inl ⟨take_setCtr_ctrblk h _, rfl⟩
  | fail hd _ hs _ _ _ =>
    obtain ⟨_, _, _, herr⟩ := h.busy hs
    rw [hd, endRequest_raiseError h hs]
    exact .inr ⟨counterPrefix_of_cleared (c := errorState .keySetup c.endRequest) rfl, herr, rfl⟩
  | discard hd _ _ _ _ => rw [hd]; exact .inl ⟨rfl, rfl⟩

/-- Settles O19: a change of the nonce bytes comes from reset, the core's error response, or the host's write. -/
theorem onlyFiveStepsWriteThePrefix : Obligations.OnlyFiveStepsWriteThePrefix := by
  intro s s' hinv hstep hne
  rcases step_effect hstep with ⟨hrst, hreset⟩ | ⟨hrst, hwrite⟩
  · rw [hreset]
    exact .inl ⟨counterPrefix_of_cleared (c := Controller.resetOf s.st.size) rfl, .inl hrst⟩
  have hsize := s.st.corePhase_size s.ports
  have hcore := corePhase_prefix hinv s.ports
  cases prefixEffect_write (inv_corePhase hinv s.ports) hwrite with
  | kept hprefix herr =>
    rcases hcore with ⟨hkept, _⟩ | ⟨hzero, hclear, hset⟩
    · exact absurd (hprefix.trans hkept) hne
    · exact .inl ⟨hprefix.trans hzero, .inr (.inl ⟨hclear, herr.trans hset⟩)⟩
  | error hprefix hclear herr =>
    rcases hcore with ⟨_, hkept⟩ | ⟨_, _, hset⟩
    · exact .inl ⟨hsize ▸ hprefix, .inr (.inl ⟨hkept ▸ hclear, herr⟩)⟩
    · rw [hclear] at hset; cases hset
  | seed hw hprefix hctrv =>
    exact .inr ⟨hprefix.trans (corePhase_staging hinv s.ports).1, hctrv, hrst, hw⟩
  | abort hw hprefix => exact .inl ⟨hsize ▸ hprefix, .inr (.inr hw)⟩

end Sys2Proof.Proofs
end

section
/-! SUPPORT. The proofs of the mixer family (41_mixer.md): the bytes below the length and from it on, the mixer against
the software's working buffer, and what it reads. -/

namespace Sys2Proof.Proofs

open Sys2Proof.Machine

/-! ## The mixer byte by byte (R130) -/

/-- Below the length, and inside the block, a byte is the XOR of the chunk's and the mask's (R130). -/
theorem byteAt_mix_of_lt {B n j : Nat} (w m : Bytes) (hB : j < B) (hn : j < n) :
    byteAt (mix B w m n) j = byteAt w j ^^^ byteAt m j := by
  rw [byteAt_mix, if_pos hB, if_pos hn]

/-- From the length on every byte is 0 (R130). -/
theorem byteAt_mix_of_le {n j : Nat} (B : Nat) (w m : Bytes) (hn : n ≤ j) : byteAt (mix B w m n) j = 0 := by
  rw [byteAt_mix, if_neg hn.not_gt, ite_self]

/-- Settles O20: below n the byte is the XOR, and from n on it is 0. -/
theorem mixerXorsBelowLengthAndClearsRest : Obligations.MixerXorsBelowLengthAndClearsRest := fun B w m n hn =>
  ⟨length_mix B w m n, fun _ hj => byteAt_mix_of_lt w m (hj.trans_le hn) hj, fun _ hj _ => byteAt_mix_of_le B w m hj⟩

/-! ## The first n bytes (R131, R133) -/

/-- The first n bytes of the mixer are the `n` bytes that are the XORs of the chunk's and the mask's (R130). -/
theorem take_mix {B n : Nat} {w m b : Bytes} (hn : n ≤ B) (hlen : b.length = n)
    (hxor : ∀ j, j < n → byteAt w j ^^^ byteAt m j = byteAt b j) : (mix B w m n).take n = b := by
  have hlength : ((mix B w m n).take n).length = n := by rw [List.length_take, length_mix, min_eq_left hn]
  apply bytes_ext (hlength.trans hlen.symm)
  intro j hj
  rw [hlength] at hj
  rw [byteAt_take hj, byteAt_mix_of_lt w m (hj.trans_le hn) hj, hxor j hj]

/-- Settles O21: below n the mask is XORed in twice, and cancels. -/
theorem mixerIsInvolution : Obligations.MixerIsInvolution := by
  intro B w m n hw hn
  apply take_mix hn (List.length_take_of_le (hn.trans_eq hw.symm))
  intro j hj
  rw [byteAt_mix_of_lt w m (hj.trans_le hn) hj, byteAt_take hj, BitVec.xor_assoc, BitVec.xor_self, BitVec.xor_zero]

/-- Byte `j` of two sequences XORed byte by byte, inside both. -/
theorem byteAt_zipWith_xor {a b : Bytes} {j : Nat} (ha : j < a.length) (hb : j < b.length) :
    byteAt (List.zipWith (· ^^^ ·) a b) j = byteAt a j ^^^ byteAt b j := by
  simp [byteAt, List.getD, ha, hb]

/-- Settles O22: what the software truncates to is the XOR of the chunk itself with the mask's first bytes, whatever it
pads with; so is what the mixer gives, whatever the buffer holds from n on. -/
theorem mixerAgreesWithPaddedXor : Obligations.MixerAgreesWithPaddedXor := by
  intro B p w m hp _ hm hchunk
  have hmask : (m.take p.length).length = p.length := List.length_take_of_le (hp.trans_eq hm.symm)
  rw [List.take_zipWith, List.take_left]
  apply take_mix hp
  · rw [List.length_zipWith, hmask, min_self]
  · intro j hj
    have hbyte : byteAt p j = byteAt w j := (congrArg (byteAt · j) hchunk).symm.trans (byteAt_take hj)
    rw [byteAt_zipWith_xor hj (hj.trans_eq hmask.symm), byteAt_take hj, hbyte]

/-! ## What the mixer reads (R135) -/

/-- Chunks and masks that agree below the length mix to one block (R135). -/
theorem mix_congr {n : Nat} {w w' m m' : Bytes} (B : Nat) (hw : ∀ j, j < n → byteAt w j = byteAt w' j)
    (hm : ∀ j, j < n → byteAt m j = byteAt m' j) : mix B w m n = mix B w' m' n := by
  apply bytes_ext (by rw [length_mix, length_mix])
  intro j hj
  rw [length_mix] at hj
  rcases Nat.lt_or_ge j n with hlt | hge
  · rw [byteAt_mix_of_lt w m hj hlt, byteAt_mix_of_lt w' m' hj hlt, hw j hlt, hm j hlt]
  · rw [byteAt_mix_of_le B w m hge, byteAt_mix_of_le B w' m' hge]

/-- A big-endian word whose last three bytes are 0 is its first byte in bits [31:24] (R10). -/
theorem be32_zero_zero_zero (b : Byte) : be32 b 0 0 0 = b.setWidth 32 <<< 24 := by
  apply BitVec.eq_of_toNat_eq
  have hzero : (0 : Byte).toNat = 0 := rfl
  have h := b.isLt
  simp only [be32, hzero, BitVec.toNat_ofNat, BitVec.toNat_shiftLeft, BitVec.toNat_setWidth, Nat.shiftLeft_eq]
  omega

/-- The first word of a block that is mixed for one byte holds that byte in bits [31:24], and 0 below (R135). -/
theorem wordAt_mix_one {B : Nat} (hB : 0 < B) (w m : Bytes) :
    wordAt (mix B w m 1) 0 = (byteAt w 0 ^^^ byteAt m 0).setWidth 32 <<< 24 := by
  rw [wordAt, byteAt_mix_of_lt w m hB Nat.one_pos, byteAt_mix_of_le B w m (by decide),
    byteAt_mix_of_le B w m (by decide), byteAt_mix_of_le B w m (by decide), be32_zero_zero_zero]

/-- Settles O23: a byte of the mixer is an XOR of bytes below n, or 0. -/
theorem mixerReadsOnlyTheChunk : Obligations.MixerReadsOnlyTheChunk := fun B w _ m _ _ hB =>
  ⟨mix_congr B, wordAt_mix_one (Nat.zero_lt_of_lt hB) w m, fun _ hj => byteAt_mix_of_le B w m hj⟩

end Sys2Proof.Proofs
end

section
/-! SUPPORT. The proofs of the message family (42_message.md), one instruction or cycle at a time: START and BLOCK, and the
requests and responses on the core port. -/

namespace Sys2Proof.Proofs

open Sys2Proof.Machine Sys2Proof.Safety

/-! ## START (R140, R142) -/

/-- The controller in which a message has begun, or is complete when it is empty (R140, R142). -/
def startedMessage (c : Controller) : Controller :=
  { c with
    ctrblk := initCounter c.size.bytes c.nonce, ctrv := true
    remain := c.msgLen
    dout := zeroBytes c.size.bytes, doutv := false, done := decide (c.msgLen = 0)
    state := if c.msgLen = 0 then .idle else .ready }

/-- START's own rule with another nonce length. -/
theorem runStart_of_nonceLen_ne {c : Controller} {k : Bool} (hn : c.nonceLen.toNat ≠ c.size.nonceBytes) :
    c.runStart k = c.raiseError .invalidNonceLength := if_pos hn

section
variable {c : Controller} {k : Bool} (hn : c.nonceLen.toNat = c.size.nonceBytes)
include hn

/-- START's own rule with a message of more than 2^32 blocks (R141). -/
theorem runStart_of_too_long (hm : c.msgLen.toNat > 2 ^ 32 * c.size.bytes) :
    c.runStart k = c.raiseError .plaintextTooLarge :=
  (if_neg (not_not.mpr hn)).trans (if_pos hm)

/-- START's own rule when nonce and message lengths are right: the key decides. -/
theorem runStart_of_lengths (hm : c.msgLen.toNat ≤ 2 ^ 32 * c.size.bytes) :
    c.runStart k = if k then c.raiseError .keySetup else startedMessage c := by
  have hfits : ¬ c.msgLen.toNat > Config.maxBlocks * c.size.bytes := Nat.not_lt.mpr hm
  rw [Controller.runStart, if_neg (not_not.mpr hn), if_neg hfits]
  simp only [startedMessage, Bool.if_false_right, Bool.and_true]

end

/-- START in IDLE follows its own rule (R210). -/
theorem exec_start_of_idle {s : State} (hidle : s.st.state = .idle) :
    exec .start s = .next (s.setSt (s.st.runStart s.ports.coreKeyErr)) :=
  exec_guarded_of_legal (i := .start) rfl (deaf_false_of_idle hidle) (decide_eq_true hidle)

/-- START in IDLE, with every check passed, begins the message. -/
theorem exec_start_of_checks {s : State} (hidle : s.st.state = .idle) (hn : s.st.nonceLen.toNat = s.st.size.nonceBytes)
    (hm : s.st.msgLen.toNat ≤ 2 ^ 32 * s.st.size.bytes) (hk : s.ports.coreKeyErr = false) :
    exec .start s = .next (s.setSt (startedMessage s.st)) := by
  rw [exec_start_of_idle hidle, runStart_of_lengths hn hm, hk]
  rfl

/-- Settles O24: START's own rule runs in IDLE, with its checks in R211's order, and is not legal in READY and BUSY. -/
theorem startBeginsMessageOrRaises : Obligations.StartBeginsMessageOrRaises := by
  refine ⟨rfl, fun s hinv => ⟨fun hidle => ?_, fun hbusy => ?_⟩⟩
  · have hraise := raiseError_of_listening hinv (deaf_false_of_idle hidle)
    refine ⟨fun hn => ?_, fun hn hm => ?_, fun hn hm hk => ?_, exec_start_of_checks hidle⟩
    · rw [exec_start_of_idle hidle, runStart_of_nonceLen_ne hn, hraise]
    · rw [exec_start_of_idle hidle, runStart_of_too_long hn hm, hraise]
    · rw [exec_start_of_idle hidle, runStart_of_lengths hn hm, hk, if_pos rfl, hraise]
  · refine exec_guarded_of_not_legal (i := .start) rfl hinv (s.st.deaf_eq_false_iff.mpr (.inr hbusy)) ?_
    rcases hbusy with h | h <;> simp [legal, h]

/-! ## BLOCK (R145) -/

/-- BLOCK in READY follows its own rule (R210). -/
theorem exec_block_of_ready {s : State} (hready : s.st.state = .ready) :
    exec .block s = .next (s.setSt s.st.runBlock) :=
  exec_guarded_of_legal (i := .block) rfl (s.st.deaf_eq_false_iff.mpr (.inr (.inl hready))) (decide_eq_true hready)

/-- BLOCK in IDLE and BUSY raises SEQUENCE. -/
theorem exec_block_of_not_ready {s : State} (hinv : Inv s.st) (h : s.st.state = .idle ∨ s.st.state = .busy) :
    exec .block s = .next (s.setSt (errorState .sequence s.st)) := by
  refine exec_guarded_of_not_legal (i := .block) rfl hinv (s.st.deaf_eq_false_iff.mpr (h.imp_right .inr)) ?_
  rcases h with h | h <;> simp [legal, h]

/-- Settles O27: BLOCK's own rule runs in READY, and is not legal in IDLE and BUSY. -/
theorem blockIssuesRequestOrRaises : Obligations.BlockIssuesRequestOrRaises := by
  refine ⟨rfl, fun s hinv => ⟨fun hready => ?_, exec_block_of_not_ready hinv⟩⟩
  rw [exec_block_of_ready hready, Controller.runBlock, chunkLen_eq_min]

/-- In IDLE no request is pending (R41 (b)). -/
theorem reqPend_false_of_idle {c : Controller} (h : Inv c) (hidle : c.state = .idle) : c.reqPend = false :=
  (c.inFlight_eq_false_iff.mp (inv_quiet h (by simp [hidle]) (by simp [hidle]))).1

/-- An instruction keeps the invariants. -/
theorem inv_exec {i : Instr} {s t : State} (h : Inv s.st) (hexec : exec i s = .next t) : Inv t.st :=
  execState_of_exec hexec ▸ inv_hostEffect h (exec_hostEffect i s)

/-- Settles O26: the started controller has an empty message complete, in IDLE, where BLOCK is not legal. -/
theorem emptyMessageCompletesAtOnce : Obligations.EmptyMessageCompletesAtOnce := by
  intro s hinv hidle hn hk hempty
  have hstart := exec_start_of_checks hidle hn (by simp [hempty]) hk
  have hstate : (startedMessage s.st).state = .idle := if_pos hempty
  refine ⟨_, hstart, ?_, reqPend_false_of_idle (c := s.st) hinv hidle, hstate, decide_eq_true hempty, rfl, hempty,
    exec_block_of_not_ready (inv_exec hinv hstart) (.inl hstate)⟩
  rw [busRead_ctr]
  exact ctrOf_setCtr (counterBytes_le s.st.size) s.st.nonce 1

/-! ## The core port, one cycle at a time (R146 to R153) -/

/-- With a request in flight no host instruction touches it: BLOCK, the only one that would, is not in READY (R146). -/
theorem hostEffect_request {c d : Controller} (h : Inv c) (hf : c.inFlight = true) (e : HostEffect c d) :
    d.reqblk = c.reqblk ∧ d.reqPend = c.reqPend ∧ d.outst = c.outst := by
  cases e with
  | error code _ _ => exact ⟨c.raiseError_reqblk code, c.raiseError_reqPend code, c.raiseError_outst code⟩
  | block hready => rw [inv_quiet h (by simp [hready]) (by simp [hready])] at hf; cases hf
  | _ => exact ⟨rfl, rfl, rfl⟩

/-- What a cycle does to a request in flight at its start, whatever the host does (R146): a pending one stays until it
is accepted, and an outstanding one until a response. -/
theorem step_request {s s' : State} (hinv : Inv s.st) (hrst : s.ports.rst = false) (hstep : step s = .next s') :
    (s.st.reqPend = true → s'.st.reqblk = s.st.reqblk ∧ s'.st.reqPend = !s.ports.coreReqReady ∧
      s'.st.outst = s.ports.coreReqReady) ∧
    (s.st.outst = true → s.ports.coreRspValid = false → s'.st.reqblk = s.st.reqblk ∧ s'.st.outst = true) := by
  have heffect : HostEffect (s.st.corePhase s.ports) s'.st := by
    rcases step_cases hstep with ⟨h, _⟩ | ⟨_, h⟩
    · rw [hrst] at h; cases h
    · exact h
  have hcore := inv_corePhase hinv s.ports
  have hkeep := fun hf => hostEffect_request hcore hf heffect
  cases corePhase_effect hinv s.ports with
  | same hd hr hv =>
    rw [hd] at hkeep
    refine ⟨fun hp => ?_, fun ho _ => ?_⟩
    · obtain ⟨hblk, hpend, hout⟩ := hkeep (s.st.inFlight_eq_true_iff.mpr (.inl hp))
      have hnone : s.st.outst = false := Bool.eq_false_iff.mpr fun ho => hinv.one_request ⟨hp, ho⟩
      rw [hr hp]
      exact ⟨hblk, hpend.trans hp, hout.trans hnone⟩
    · obtain ⟨hblk, _, hout⟩ := hkeep (s.st.inFlight_eq_true_iff.mpr (.inr ho))
      exact ⟨hblk, hout.trans ho⟩
  | accept hd hp hr ho _ =>
    rw [hd] at hkeep
    obtain ⟨hblk, hpend, hout⟩ := hkeep (by simp [Controller.inFlight, Controller.coreAccept])
    rw [hr, ho]
    exact ⟨fun _ => ⟨hblk, hpend, hout⟩, nofun⟩
  | complete _ _ _ hv _ hp => rw [hp, hv]; exact ⟨nofun, nofun⟩
  | fail _ _ _ hv _ hp => rw [hp, hv]; exact ⟨nofun, nofun⟩
  | discard _ _ hv _ hp => rw [hp, hv]; exact ⟨nofun, nofun⟩

/-- Settles O28: the outputs are the request's fields, which a cycle changes only as the core port says. -/
theorem presentedRequestIsStable : Obligations.PresentedRequestIsStable := by
  intro s s' hinv hrst hstep
  obtain ⟨hpending, houtstanding⟩ := step_request hinv hrst hstep
  refine ⟨rfl, rfl, fun hp => (hpending hp).1, fun hp hr => ?_, fun hp hr => ?_, houtstanding,
    (stepKeepsInvariants s s' hinv hstep).1.one_request⟩
  · rw [(hpending hp).2.1, hr]; rfl
  · rw [(hpending hp).2.1, (hpending hp).2.2, hr]; exact ⟨rfl, rfl⟩

/-- A cycle without reset and without a bus access is the core's part alone (R40). -/
theorem step_of_no_access {s : State} (hrst : s.ports.rst = false) (hsel : s.ports.busSel = false) :
    ∃ s', step s = .next s' ∧ s'.st = s.st.corePhase s.ports := by
  refine ⟨_, step_eq s, ?_⟩
  simp [cycleState, hrst, hsel]

/-- Settles O29: with no response the core's part is the acceptance. -/
theorem handshakeAcceptsRequest : Obligations.HandshakeAcceptsRequest := by
  intro s hrst hsel hrsp hpend hready
  obtain ⟨s', hstep, hst⟩ := step_of_no_access hrst hsel
  refine ⟨s', hstep, ?_⟩
  simp [hst, Controller.corePhase, hrsp, hpend, hready, Controller.coreAccept]

/-- When a response is taken no request is pending, and the core's part is the response (R41 (a), R40). -/
theorem corePhase_of_responseTaken {s : State} (hinv : Inv s.st) (h : responseTaken s) :
    s.st.corePhase s.ports =
      s.st.coreRespond (unpackBlock s.st.size.bytes s.ports.coreRspBlock) s.ports.coreRspErr := by
  obtain ⟨hvalid, hout⟩ := h
  simp [Controller.corePhase, hvalid, hout, inv_reqPend_false hinv hout]

/-- A response in BUSY completes the block, or ends the request with an error (R150, R151). -/
theorem coreRespond_of_busy {c : Controller} (h : c.state = .busy) (m : Bytes) (e : Bool) :
    c.coreRespond m e = if e then c.endRequest.raiseError .keySetup else c.completeBlock m := by
  rw [Controller.coreRespond, h]

/-- The block that a response completes, field by field, in a state with R41 (d) (R150). -/
theorem completeBlock_eq {c : Controller} (h : Inv c) (hbusy : c.state = .busy) (m : Bytes) :
    c.completeBlock m = { c with
      outst := false
      dout := mix c.size.bytes c.wbuf m c.wlen, doutv := true
      ctrblk := incCounter c.size.bytes c.ctrblk
      remain := BitVec.ofNat 64 (c.remain.toNat - c.wlen)
      wbuf := zeroBytes c.size.bytes, wlen := 0, reqblk := zeroBytes c.size.bytes
      state := if c.remain.toNat = c.wlen then .idle else .ready
      done := decide (c.remain.toNat = c.wlen) } := by
  obtain ⟨_, hwlen, _⟩ := h.busy hbusy
  obtain ⟨hleft, hlast⟩ := remain_sub_wlen hwlen
  have hdone := inv_done_false h (by simp [hbusy])
  simp only [Controller.completeBlock, hlast, hdone]
  simp only [hleft, Bool.if_false_right, Bool.and_true]

/-- Settles O30: the response is the whole cycle; it completes the block, or ends the request and then enters ERROR, as
nothing is in flight any more. -/
theorem responseCompletesBlockOrRaises : Obligations.ResponseCompletesBlockOrRaises := by
  intro s hinv hrst hsel hbusy htaken
  obtain ⟨s', hstep, hst⟩ := step_of_no_access hrst hsel
  rw [corePhase_of_responseTaken hinv htaken, coreRespond_of_busy hbusy] at hst
  refine ⟨s', hstep, fun he => ?_, fun he => ?_⟩
  · rw [hst, he, ← completeBlock_eq hinv hbusy]
    rfl
  · have herror : s'.st = errorState .keySetup s.st.endRequest := by
      rw [hst, he, ← endRequest_raiseError hinv hbusy]
      rfl
    refine ⟨herror, ?_, herror ▸ rfl⟩
    rw [herror]
    simp [errorState, inv_reqPend_false hinv htaken.2]

/-- Settles O31: the response is the whole cycle, and in DRAIN it only ends the request. -/
theorem responseInDrainIsDiscarded : Obligations.ResponseInDrainIsDiscarded := by
  intro s hinv hrst hsel hdrain htaken
  obtain ⟨s', hstep, hst⟩ := step_of_no_access hrst hsel
  refine ⟨s', hstep, ?_⟩
  rw [hst, corePhase_of_responseTaken hinv htaken, Controller.coreRespond, hdrain]
  rfl

/-- States that agree but for the inputs of the cycle that ends. -/
theorem endCycle_congr {s t : State} (hst : s.st = t.st) (hdata : s.busRdata = t.busRdata)
    (hinputs : s.inputs.tail = t.inputs.tail) (hcycle : s.cycle = t.cycle) : s.endCycle = t.endCycle := by
  obtain ⟨_, _, _, _⟩ := s
  obtain ⟨_, _, _, _⟩ := t
  simp_all [State.endCycle]

/-- With no request outstanding the core's part does not look at the response (R153). -/
theorem corePhase_of_not_outst {c : Controller} (h : c.outst = false) (p : Ports) :
    c.corePhase { p with coreRspValid := false } = c.corePhase p := by
  simp [Controller.corePhase, h]

/-! The state before the clock edge, in the three kinds of cycle (R40). -/

theorem cycleState_of_reset {s : State} (hrst : s.ports.rst = true) :
    cycleState s = (s.setRdata (cycleRdata s)).setSt (Controller.resetOf s.st.size) := if_pos hrst

theorem cycleState_of_write {s : State} (hrst : ¬ s.ports.rst = true) (hw : (s.ports.busSel && s.ports.busWe) = true) :
    cycleState s = execState (cycleWrite s) ((s.setRdata (cycleRdata s)).setSt (s.st.corePhase s.ports)) :=
  (if_neg hrst).trans (if_pos hw)

theorem cycleState_of_no_write {s : State} (hrst : ¬ s.ports.rst = true)
    (hw : ¬ (s.ports.busSel && s.ports.busWe) = true) :
    cycleState s = (s.setRdata (cycleRdata s)).setSt (s.st.corePhase s.ports) :=
  (if_neg hrst).trans (if_neg hw)

/-- Two states that differ only in whether the current cycle presents a response, with no request outstanding, take
one and the same step. -/
theorem step_of_stray {s t : State} (hst : t.st = s.st) (htail : t.inputs.tail = s.inputs.tail)
    (hcycle : t.cycle = s.cycle) (hports : t.ports = { s.ports with coreRspValid := false })
    (hout : s.st.outst = false) : step s = step t := by
  have hcore : t.st.corePhase t.ports = s.st.corePhase s.ports := by rw [hports, hst, corePhase_of_not_outst hout]
  have hdata : cycleRdata t = cycleRdata s := by rw [cycleRdata, cycleRdata, hports, hst]
  have hwrite : cycleWrite t = cycleWrite s := by rw [cycleWrite, cycleWrite, hports]
  have hkey : t.ports.coreKeyErr = s.ports.coreKeyErr := by rw [hports]
  rw [step_eq, step_eq]
  refine congrArg Host.Outcome.next (Eq.symm ?_)
  by_cases hrst : s.ports.rst = true
  · rw [cycleState_of_reset hrst, cycleState_of_reset (by rwa [hports])]
    exact endCycle_congr (congrArg Controller.resetOf (congrArg Controller.size hst)) hdata htail hcycle
  by_cases hw : (s.ports.busSel && s.ports.busWe) = true
  · rw [cycleState_of_write hrst hw, cycleState_of_write (by rwa [hports]) (by rwa [hports]), hwrite]
    obtain ⟨hnext, hread⟩ := execState_congr (cycleWrite s) (s := (t.setRdata (cycleRdata t)).setSt _)
      (t := (s.setRdata (cycleRdata s)).setSt _) hcore hkey
    exact endCycle_congr hnext (hread hdata) (by simpa using htail) (by simpa using hcycle)
  · rw [cycleState_of_no_write hrst hw, cycleState_of_no_write (by rwa [hports]) (by rwa [hports])]
    exact endCycle_congr hcore hdata htail hcycle

/-- Settles O32: only the core's part looks at a response, and only where a request is outstanding; an instruction looks
at the inputs through core_key_err alone. -/
theorem strayResponseIsIgnored : Obligations.StrayResponseIsIgnored := by
  intro s p ps hinputs hout
  have hports : s.ports = p := congrArg (List.headD · _) hinputs
  exact step_of_stray rfl (congrArg List.tail hinputs).symm rfl (by rw [hports]; rfl) hout

end Sys2Proof.Proofs
end

section
/-! SUPPORT. The proofs of the message family, messages as a whole (42_message.md R155 to R158): what an event of a message
can do, the state of a message after `n` blocks, which every event keeps, and what a run has output and asked of the core
by then. -/

namespace Sys2Proof.Proofs

open Sys2Proof.Machine Sys2Proof.Safety

/-! ## What an event of a message can do -/

/-- What an event of a message without an error does to the controller: a staging write, a read or NOP; a BLOCK in READY
on the next bytes of `P`; the acceptance of the request; or the core's answer `E` to it (R155). -/
inductive MessageEffect (E : Bytes → Bytes) (P : Bytes) (c : Controller) : Event → Controller → Prop where
  | staging (i : Instr) (hi : command i ≠ some .block) (inten : BitVec 3) (nonceLen : BitVec 6) (msgLen : BitVec 64)
      (nonce din : Bytes) :
      MessageEffect E P c (.host i)
        { c with inten := inten, nonceLen := nonceLen, msgLen := msgLen, nonce := nonce, din := din }
  | block (i : Instr) (hi : command i = some .block) (hready : c.state = .ready)
      (hdin : ∀ j, j < min c.size.bytes c.remain.toNat → byteAt c.din j = byteAt P (P.length - c.remain.toNat + j)) :
      MessageEffect E P c (.host i) c.runBlock
  | accept (hpend : c.reqPend = true) : MessageEffect E P c .coreAccept c.coreAccept
  | respond (hbusy : c.state = .busy) (hout : c.outst = true) :
      MessageEffect E P c (.coreRespond (E c.reqblk) false) (c.completeBlock (E c.reqblk))

/-- An instruction that issues a command does what the command does. -/
theorem execState_of_command {i : Instr} {m : Cmd} (h : command i = some m) (s : State) :
    ∃ w, execState i s = execState (m.instr w) s := by
  cases i with
  | wrCmd d => cases h; exact ⟨d, execState_wrCmd d s⟩
  | illegal w => cases h; exact ⟨w, rfl⟩
  | nop | init | inc | start | block | abort => cases h; exact ⟨0, rfl⟩
  | _ => cases h

/-- An instruction that issues no command, and is no CTR write, changes no register but the staging ones (R175, R176). -/
theorem exec_staging {i : Instr} (h : command i = none) (hctr : ∀ d, i ≠ .wrCtr d) (s : State) :
    ∃ inten nonceLen msgLen nonce din, (execState i s).st =
      { s.st with inten := inten, nonceLen := nonceLen, msgLen := msgLen, nonce := nonce, din := din } := by
  cases i with
  | nop | init | inc | start | block | abort | illegal _ | wrCmd _ => cases h
  | wrCtr d => exact absurd rfl (hctr d)
  | wrNonce k d =>
    by_cases hk : k.val < s.st.size.nw
    · rw [execState_of_exec (exec_wrNonce_implemented hk d)]
      exact ⟨_, _, _, _, _, rfl⟩
    · exact ⟨_, _, _, _, _, congrArg State.st (execState_of_exec (exec_wrNonce_unimplemented hk d))⟩
  | wrDin k d =>
    by_cases hk : k.val < s.st.size.bw
    · rw [execState_of_exec (exec_wrDin_implemented hk d)]
      exact ⟨_, _, _, _, _, rfl⟩
    · exact ⟨_, _, _, _, _, congrArg State.st (execState_of_exec (exec_wrDin_unimplemented hk d))⟩
  | _ => exact ⟨_, _, _, _, _, rfl⟩

/-- What the host may do during a message: BLOCK, NOP, or what issues no command and is no CTR write. -/
theorem command_of_mayDuring {i : Instr} (h : mayDuring (.host i) = true) :
    command i = some .block ∨ command i = some .nop ∨ (command i = none ∧ ∀ d, i ≠ .wrCtr d) := by
  cases i with
  | wrCmd d => cases hm : decodeCmd d <;> simp_all [mayDuring, command]
  | wrCtr d => cases h
  | _ => simp_all [mayDuring, command]

/-- An atomic step that is enabled keeps the invariants. -/
theorem inv_eventStep {e : Event} {s t : State} (h : Inv s.st) (henabled : e.enabled s.st = true)
    (hstep : eventStep e s = .next t) : Inv t.st := by
  cases e with
  | reset => cases hstep; exact inv_resetOf s.st.size
  | coreAccept => cases hstep; exact inv_coreAccept h henabled
  | coreRespond m x => cases hstep; exact inv_coreRespond h henabled m x
  | host i => exact inv_exec h hstep

/-- Outside ERROR and DRAIN a request in flight is that of a block, in BUSY (R41 (b)). -/
theorem busy_of_inFlight {c : Controller} (h : Inv c) (hlistens : c.deaf = false) (hf : c.inFlight = true) :
    c.state = .busy := by
  refine (h.in_flight_iff.mpr hf).resolve_right fun hdrain => ?_
  rw [c.deaf_eq_true_iff.mpr (.inr hdrain)] at hlistens
  cases hlistens

/-- NOP changes nothing (R170). -/
theorem execState_nop (s : State) : execState .nop s = s := by
  have hnop : s.st.guarded true id = s.st := by simp [Controller.guarded]
  exact congrArg s.setSt hnop

section
variable {E : Bytes → Bytes} {P : Bytes} {s : State} (hinv : Inv s.st) (hlistens : s.st.deaf = false)
include hinv hlistens

/-- An instruction that a message allows, and that raises no error, has one of the effects. -/
theorem messageEffect_of_host {i : Instr} (hfollows : followsMessage E P s.st (.host i))
    (herr : (execState i s).st.err = false) : MessageEffect E P s.st (.host i) (execState i s).st := by
  obtain ⟨hmay, _, hchunk⟩ := hfollows
  rcases command_of_mayDuring hmay with hi | hi | ⟨hi, hctr⟩
  · obtain ⟨w, hw⟩ := execState_of_command hi s
    rw [hw, Cmd.instr] at herr ⊢
    by_cases hready : s.st.state = .ready
    · rw [execState_of_exec (exec_block_of_ready hready)]
      exact .block i hi hready (hchunk i rfl hi)
    · have hother : s.st.state = .idle ∨ s.st.state = .busy := by
        have hstate := s.st.deaf_eq_false_iff.mp hlistens
        tauto
      rw [execState_of_exec (exec_block_of_not_ready hinv hother)] at herr
      cases herr
  · obtain ⟨w, hw⟩ := execState_of_command hi s
    rw [hw, Cmd.instr, execState_nop]
    exact .staging i (by simp [hi]) s.st.inten s.st.nonceLen s.st.msgLen s.st.nonce s.st.din
  · obtain ⟨inten, nonceLen, msgLen, nonce, din, hst⟩ := exec_staging hi hctr s
    rw [hst]
    exact .staging i (by simp [hi]) inten nonceLen msgLen nonce din

/-- An event of a message that raises no error has one of the effects. -/
theorem messageEffect_of_event {e : Event} {t : State} (henabled : e.enabled s.st = true)
    (hfollows : followsMessage E P s.st e) (hstep : eventStep e s = .next t) (herr : t.st.err = false) :
    MessageEffect E P s.st e t.st := by
  cases e with
  | reset => cases hfollows.1
  | coreAccept => cases hstep; exact .accept henabled
  | coreRespond m x =>
    obtain ⟨_, hanswer, _⟩ := hfollows
    obtain ⟨rfl, rfl⟩ := hanswer m x rfl
    cases hstep
    have hbusy := busy_of_inFlight hinv hlistens (s.st.inFlight_eq_true_iff.mpr (.inr henabled))
    rw [State.setSt_st, coreRespond_of_busy hbusy]
    exact .respond hbusy henabled
  | host i =>
    have ht : execState i s = t := execState_of_exec hstep
    subst ht
    exact messageEffect_of_host hinv hlistens hfollows herr

end

/-! ## Counter blocks and the source's encryption, byte by byte (R155) -/

/-- The first block of a message carries the initial counter (R111). -/
theorem initCounter_eq_counterBlock (B : Nat) (nonce : Bytes) : initCounter B nonce = counterBlock B nonce 0 := rfl

/-- The counter integer of block `i`. -/
theorem ctrOf_counterBlock {B : Nat} (hB : 4 ≤ B) (nonce : Bytes) (i : Nat) :
    (ctrOf B (counterBlock B nonce i)).toNat = (1 + i) % 2 ^ 32 := by
  rw [counterBlock, ctrOf_setCtr hB, BitVec.toNat_ofNat]

/-- The increment leads from one counter block of a message to the next (R114). -/
theorem incCounter_counterBlock {B : Nat} (hB : 4 ≤ B) (nonce : Bytes) (i : Nat) :
    incCounter B (counterBlock B nonce i) = counterBlock B nonce (i + 1) := by
  rw [incCounter, counterBlock, ctrOf_setCtr hB, setCtr_setCtr]
  exact congrArg (setCtr B nonce) (BitVec.ofNat_add (1 + i) 1).symm

/-- The blocks of a message of at most 2^32 have different counter blocks (R157). -/
theorem counterBlock_injective {B : Nat} (hB : 4 ≤ B) (nonce : Bytes) {i j : Nat} (hi : i < 2 ^ 32) (hj : j < 2 ^ 32)
    (h : counterBlock B nonce i = counterBlock B nonce j) : i = j := by
  have hctr := congrArg (fun b => (ctrOf B b).toNat) h
  simp only [ctrOf_counterBlock hB] at hctr
  omega

@[simp] theorem length_ctrEncrypt (B : Nat) (E : Bytes → Bytes) (nonce P : Bytes) :
    (ctrEncrypt B E nonce P).length = P.length := by rw [ctrEncrypt, length_mkBytes]

/-- Byte `j` of chunk `i` of the encryption is the plaintext's byte XORed with byte `j` of the chunk's mask. -/
theorem byteAt_ctrEncrypt {B i j : Nat} (E : Bytes → Bytes) (nonce : Bytes) {P : Bytes} (hj : j < B)
    (hP : i * B + j < P.length) :
    byteAt (ctrEncrypt B E nonce P) (i * B + j) = byteAt P (i * B + j) ^^^ byteAt (E (counterBlock B nonce i)) j := by
  have hdiv : (i * B + j) / B = i := by
    rw [Nat.mul_comm, Nat.mul_add_div (Nat.zero_lt_of_lt hj), Nat.div_eq_of_lt hj, Nat.add_zero]
  have hmod : (i * B + j) % B = j := by rw [Nat.mul_comm, Nat.mul_add_mod, Nat.mod_eq_of_lt hj]
  rw [ctrEncrypt, byteAt_mkBytes, if_pos hP, hdiv, hmod]

/-- Encrypting twice under one nonce and cipher gives the plaintext back: every mask is XORed in twice (R156). -/
theorem ctrEncrypt_ctrEncrypt (B : Nat) (E : Bytes → Bytes) (nonce P : Bytes) :
    ctrEncrypt B E nonce (ctrEncrypt B E nonce P) = P := by
  apply bytes_ext (by simp)
  intro p hp
  rw [length_ctrEncrypt, length_ctrEncrypt] at hp
  rw [ctrEncrypt, byteAt_mkBytes, length_ctrEncrypt, if_pos hp, ctrEncrypt, byteAt_mkBytes, if_pos hp,
    BitVec.xor_assoc, BitVec.xor_self, BitVec.xor_zero]

/-- `n` chunks of `B` bytes are not more than a message needs, in bytes (R141). -/
theorem le_ceilDiv_iff {L B n : Nat} (hB : 0 < B) : n ≤ ceilDiv L B ↔ n * B < L + B := by
  rw [ceilDiv, Nat.le_div_iff_mul_le hB]
  omega

/-- `n` chunks of `B` bytes are enough for a message, in bytes (R141). -/
theorem ceilDiv_le_iff {L B n : Nat} (hB : 0 < B) : ceilDiv L B ≤ n ↔ L ≤ n * B := by
  rw [ceilDiv, ← Nat.lt_succ_iff, Nat.div_lt_iff_lt_mul hB, Nat.succ_mul]
  omega

/-- Byte `j` from `i` on. -/
theorem byteAt_drop (b : Bytes) (i j : Nat) : byteAt (b.drop i) j = byteAt b (i + j) := by
  simp [byteAt, List.getD]

/-! ## The state of a message after `n` blocks -/

section
variable {z : BlockSize} {E : Bytes → Bytes} {P nonce : Bytes} {n : Nat} {c d : Controller} {e : Event}

/-- A message with plaintext `P` and nonce `nonce`, as START found it, of which `n` blocks are complete (R155). -/
structure MessageAt (z : BlockSize) (E : Bytes → Bytes) (P nonce : Bytes) (n : Nat) (c : Controller) : Prop where
  inv : Inv c
  size : c.size = z
  listens : c.deaf = false
  /-- No more blocks than the plaintext has. -/
  blocks : n * z.bytes < P.length + z.bytes
  remain : c.remain.toNat = P.length - n * z.bytes
  counter : c.ctrblk = counterBlock z.bytes nonce n
  /-- The chunk in flight is the next one of the plaintext. -/
  chunk : c.state = .busy → ∀ j, j < c.wlen → byteAt c.wbuf j = byteAt P (n * z.bytes + j)
  /-- The output that stands is the last chunk. -/
  output : c.doutv = true → 1 ≤ n ∧ ∀ j, j < z.bytes → byteAt c.dout j =
    if j < min z.bytes (P.length - (n - 1) * z.bytes) then
      byteAt P ((n - 1) * z.bytes + j) ^^^ byteAt (E (counterBlock z.bytes nonce (n - 1))) j
    else 0
  complete : c.state = .idle → c.done = true ∧ c.doutv = true

/-- The message that START begins has completed no block. -/
theorem messageAt_started (hinv : Inv (startedMessage c)) (hm : c.msgLen.toNat = P.length) (hP : 1 ≤ P.length) :
    MessageAt c.size E P c.nonce 0 (startedMessage c) := by
  have hB := c.size.bytes_pos
  have hnot : c.msgLen ≠ 0 := by
    intro h0
    have hempty : P.length = 0 := by rw [← hm, h0]; rfl
    omega
  have hstate : (startedMessage c).state = .ready := if_neg hnot
  exact {
    inv := hinv
    size := rfl
    listens := (startedMessage c).deaf_eq_false_iff.mpr (.inr (.inl hstate))
    blocks := by omega
    remain := hm.trans (by simp)
    counter := rfl
    chunk := fun h => by rw [hstate] at h; cases h
    output := nofun
    complete := fun h => by rw [hstate] at h; cases h }

namespace MessageAt

variable (h : MessageAt z E P nonce n c)
include h

/-- In READY and BUSY bytes of the plaintext remain (R41 (c), (d)). -/
theorem lt_length_of_remain (hr : 0 < c.remain.toNat) : n * z.bytes < P.length := by
  have hrem := h.remain
  omega

theorem lt_length_of_busy (hbusy : c.state = .busy) : n * z.bytes < P.length := by
  obtain ⟨_, hwlen, hpos, _⟩ := h.inv.busy hbusy
  exact h.lt_length_of_remain (by omega)

/-- In BUSY the chunk in flight has the bytes that R134 gives it. -/
theorem wlen_eq (hbusy : c.state = .busy) : c.wlen = min z.bytes (P.length - n * z.bytes) := by
  obtain ⟨_, hwlen, _, _⟩ := h.inv.busy hbusy
  rw [hwlen, h.size, h.remain]

/-- The request in flight carries the counter block of the chunk in flight. -/
theorem reqblk_eq (hbusy : c.state = .busy) : c.reqblk = counterBlock z.bytes nonce n :=
  (h.inv.request hbusy).trans h.counter

/-- A response completes the chunk in flight. -/
theorem completeBlock (hbusy : c.state = .busy) (hinv : Inv (c.completeBlock (E c.reqblk))) :
    MessageAt z E P nonce (n + 1) (c.completeBlock (E c.reqblk)) := by
  have hlt := h.lt_length_of_busy hbusy
  have hrem := h.remain
  have hwlen := h.wlen_eq hbusy
  have hr64 := c.remain.isLt
  have hsucc : (n + 1) * z.bytes = n * z.bytes + z.bytes := Nat.succ_mul n z.bytes
  have hmask := h.reqblk_eq hbusy
  rw [completeBlock_eq h.inv hbusy] at hinv ⊢
  refine ⟨hinv, h.size, ?_, by omega, ?_, ?_, ?_, fun _ => ⟨by omega, fun j hj => ?_⟩, ?_⟩
  · rw [Controller.deaf_eq_false_iff]
    dsimp only
    split <;> simp
  · rw [BitVec.toNat_ofNat, Nat.mod_eq_of_lt (by omega)]
    omega
  · rw [h.size, h.counter]
    exact incCounter_counterBlock (counterBytes_le z) nonce n
  · dsimp only
    split <;> nofun
  · rw [h.size, byteAt_mix, if_pos hj, hwlen, Nat.add_sub_cancel, hmask]
    split
    next hchunk => rw [h.chunk hbusy j (by rwa [hwlen])]
    next => rfl
  · dsimp only
    split
    next hlast => exact fun _ => ⟨decide_eq_true hlast, rfl⟩
    next => nofun

/-- Every effect but a response keeps the number of blocks; a response completes one. -/
theorem after_effect (he : MessageEffect E P c e d) (hinv : Inv d) : MessageAt z E P nonce (n + responses [e]) d := by
  cases he with
  | staging i hi inten nonceLen msgLen nonce' din =>
    exact ⟨hinv, h.size, h.listens, h.blocks, h.remain, h.counter, h.chunk, h.output, h.complete⟩
  | block i hi hready hdin =>
    have hrem := h.remain
    have hlt := h.lt_length_of_remain (remain_pos (h.inv.ready hready).1)
    refine ⟨hinv, h.size, rfl, h.blocks, h.remain, h.counter, fun _ j hj => ?_, nofun, nofun⟩
    have hj' : j < min c.size.bytes c.remain.toNat := by rwa [← chunkLen_eq_min]
    have hoffset : P.length - c.remain.toNat = n * z.bytes := by omega
    exact (hdin j hj').trans (by rw [hoffset]; rfl)
  | accept hpend =>
    exact ⟨hinv, h.size, h.listens, h.blocks, h.remain, h.counter, h.chunk, h.output, h.complete⟩
  | respond hbusy hout => exact h.completeBlock hbusy hinv

end MessageAt

end

/-! ## What a run of a message has output and asked of the core -/

section
variable {e : Event} {s t : State} (h : eventStep e s = .next t) (es : List Event)
include h

theorem runEvents_cons (henabled : e.enabled s.st = true) : runEvents (e :: es) s = runEvents es t := by
  simp [runEvents, henabled, h]

theorem outputs_cons : outputs (e :: es) s = outputs [e] s ++ outputs es t := by simp [outputs, h]

theorem requests_cons : requests (e :: es) s = requests [e] s ++ requests es t := by simp [requests, h]

theorem blocksIssued_cons : blocksIssued (e :: es) s = blocksIssued [e] s + blocksIssued es t := by
  simp [blocksIssued, h]

end

theorem responses_cons (e : Event) (es : List Event) : responses (e :: es) = responses [e] + responses es :=
  List.countP_append (l₁ := [e])

section
variable {z : BlockSize} {E : Bytes → Bytes} {P nonce : Bytes} {n : Nat} {e : Event} {es : List Event} {s t : State}

/-- The blocks asked of the core when `n` responses have come: one for each response, and the one still outstanding. -/
def askedAt (z : BlockSize) (nonce : Bytes) (n : Nat) (c : Controller) : List Bytes :=
  (List.range (n + c.outst.toNat)).map (counterBlock z.bytes nonce)

/-- From `s`, after `n` blocks, the events `es` of a message lead to `t`; what they output, ask of the core and issue on
the way follows from the state of the message before and after them. -/
structure Progress (z : BlockSize) (E : Bytes → Bytes) (P nonce : Bytes) (n : Nat) (es : List Event) (s t : State) :
    Prop where
  at_end : MessageAt z E P nonce (n + responses es) t.st
  outputs : (ctrEncrypt z.bytes E nonce P).take (P.length - s.st.remain.toNat) ++ outputs es s =
    (ctrEncrypt z.bytes E nonce P).take (P.length - t.st.remain.toNat)
  requests : askedAt z nonce n s.st ++ requests es s = askedAt z nonce (n + responses es) t.st
  issued : n + s.st.inFlight.toNat + blocksIssued es s = n + responses es + t.st.inFlight.toNat

/-- Progress of one event and then of the rest. -/
theorem Progress.cons (hstep : eventStep e s = .next t) {u : State} (hhead : Progress z E P nonce n [e] s t)
    (htail : Progress z E P nonce (n + responses [e]) es t u) : Progress z E P nonce n (e :: es) s u where
  at_end := by rw [responses_cons, ← Nat.add_assoc]; exact htail.at_end
  outputs := by rw [outputs_cons hstep, ← List.append_assoc, hhead.outputs, htail.outputs]
  requests := by
    rw [requests_cons hstep, ← List.append_assoc, hhead.requests, htail.requests, responses_cons e es, ← Nat.add_assoc]
  issued := by
    rw [blocksIssued_cons hstep, ← Nat.add_assoc, hhead.issued, htail.issued, responses_cons e es, ← Nat.add_assoc]

namespace MessageAt

/-- The chunk that a response completes is the next one of the encryption. -/
theorem take_dout {c : Controller} (h : MessageAt z E P nonce n c) (hbusy : c.state = .busy) :
    (c.completeBlock (E c.reqblk)).dout.take c.wlen =
      ((ctrEncrypt z.bytes E nonce P).drop (n * z.bytes)).take c.wlen := by
  have hlt := h.lt_length_of_busy hbusy
  have hwlen := h.wlen_eq hbusy
  have hmask := h.reqblk_eq hbusy
  refine take_mix (by rw [h.size]; omega) ?_ fun j hj => ?_
  · rw [List.length_take, List.length_drop, length_ctrEncrypt]
    omega
  · rw [byteAt_take hj, byteAt_drop, byteAt_ctrEncrypt E nonce (by omega) (by omega), h.chunk hbusy j hj, hmask]

/-- A response outputs the next chunk of the encryption. -/
theorem outputs_respond {c : Controller} (h : MessageAt z E P nonce n c) (hbusy : c.state = .busy)
    (hinv : Inv (c.completeBlock (E c.reqblk))) :
    (ctrEncrypt z.bytes E nonce P).take (P.length - c.remain.toNat) ++
        (c.completeBlock (E c.reqblk)).dout.take c.wlen =
      (ctrEncrypt z.bytes E nonce P).take (P.length - (c.completeBlock (E c.reqblk)).remain.toNat) := by
  have hlt := h.lt_length_of_busy hbusy
  have hwlen := h.wlen_eq hbusy
  have hsucc : (n + 1) * z.bytes = n * z.bytes + z.bytes := Nat.succ_mul n z.bytes
  have hbefore : P.length - c.remain.toNat = n * z.bytes := by rw [h.remain]; omega
  have hafter : P.length - (c.completeBlock (E c.reqblk)).remain.toNat = n * z.bytes + c.wlen := by
    rw [(h.completeBlock hbusy hinv).remain]; omega
  rw [hbefore, hafter, h.take_dout hbusy, List.take_add]

/-- An acceptance asks for the next counter block. -/
theorem askedAt_accept {c : Controller} (h : MessageAt z E P nonce n c) (hpend : c.reqPend = true) :
    askedAt z nonce n c ++ [c.reqblk] = askedAt z nonce n c.coreAccept := by
  have hout : c.outst = false := Bool.eq_false_iff.mpr fun ho => h.inv.one_request ⟨hpend, ho⟩
  have hblk := h.reqblk_eq (busy_of_inFlight h.inv h.listens (c.inFlight_eq_true_iff.mpr (.inl hpend)))
  have haccepted : c.coreAccept.outst = true := rfl
  rw [askedAt, askedAt, hout, haccepted, hblk]
  exact (List.map_append (l₂ := [n])).symm.trans (congrArg (List.map _) List.range_succ.symm)

end MessageAt

/-- An event of a message makes progress. -/
theorem progress_event (h : MessageAt z E P nonce n s.st) (hinv : Inv t.st) (hstep : eventStep e s = .next t)
    (he : MessageEffect E P s.st e t.st) : Progress z E P nonce n [e] s t := by
  have hend := h.after_effect he hinv
  generalize hd : t.st = d at he hinv
  cases he with
  | staging i hi inten nonceLen msgLen nonce' din =>
    refine ⟨hend, ?_, ?_, ?_⟩
    · simp [outputs, hstep, hd]
    · simp [requests, hstep, hd, askedAt, responses]
    · simp [blocksIssued, hstep, hd, responses, hi, Controller.inFlight]
  | block i hi hready _ =>
    have hquiet := s.st.inFlight_eq_false_iff.mp (inv_quiet h.inv (by simp [hready]) (by simp [hready]))
    refine ⟨hend, ?_, ?_, ?_⟩
    · simp [outputs, hstep, hd, Controller.runBlock]
    · simp [requests, hstep, hd, askedAt, responses, Controller.runBlock]
    · simp [blocksIssued, hstep, hd, responses, hi, hready, hquiet, Controller.inFlight, Controller.runBlock]
  | accept hpend =>
    refine ⟨hend, ?_, ?_, ?_⟩
    · simp [outputs, hstep, hd, Controller.coreAccept]
    · simpa [requests, hstep, hd, responses] using h.askedAt_accept hpend
    · simp [blocksIssued, hstep, hd, responses, hpend, Controller.inFlight, Controller.coreAccept]
  | respond hbusy hout =>
    have hpend := inv_reqPend_false h.inv hout
    refine ⟨hend, ?_, ?_, ?_⟩
    · simpa [outputs, hstep, hd] using h.outputs_respond hbusy hinv
    · simp [requests, hstep, hd, askedAt, responses, hout, Controller.completeBlock]
    · simp [blocksIssued, hstep, hd, responses, hout, hpend, Controller.inFlight, Controller.completeBlock]

/-- A run of a message makes progress, from every state of the message. -/
theorem progress_messageRun (h : MessageAt z E P nonce n s.st) (hrun : messageRun E P es s)
    (hend : runEvents es s = some t) : Progress z E P nonce n es s t := by
  induction es generalizing n s with
  | nil =>
    cases hend
    exact ⟨h, List.append_nil _, List.append_nil _, rfl⟩
  | cons e es ih =>
    obtain ⟨henabled, hfollows, u, hstep, herr, hrest⟩ := hrun
    have hinv := inv_eventStep h.inv henabled hstep
    have hhead := progress_event h hinv hstep (messageEffect_of_event h.inv h.listens henabled hfollows hstep herr)
    rw [runEvents_cons hstep es henabled] at hend
    exact hhead.cons hstep (ih hhead.at_end hrest hend)

end

/-! ## Messages from START on (R155 to R158) -/

/-- START in `s0` passes its checks and begins in `s1` a message with plaintext `P`, which is not empty (R140, R155). -/
structure BeginsMessage (P : Bytes) (s0 s1 : State) : Prop where
  inv : Inv s0.st
  idle : s0.st.state = .idle
  nonceLen : s0.st.nonceLen.toNat = s0.st.size.bytes - 4
  msgLen : s0.st.msgLen.toNat = P.length
  not_empty : 1 ≤ P.length
  fits : P.length ≤ 2 ^ 32 * s0.st.size.bytes
  key : s0.ports.coreKeyErr = false
  start : exec .start s0 = .next s1

section
variable {E : Bytes → Bytes} {P : Bytes} {s0 s1 s' : State} {es : List Event}

theorem BeginsMessage.st_eq (h : BeginsMessage P s0 s1) : s1.st = startedMessage s0.st := by
  have hstart := exec_start_of_checks h.idle h.nonceLen (h.msgLen ▸ h.fits) h.key
  rw [h.start] at hstart
  exact congrArg State.st (Host.Outcome.next.inj hstart)

/-- A run from START on makes progress from no block, with nothing output, asked or issued before it. -/
theorem BeginsMessage.progress (h : BeginsMessage P s0 s1) (hrun : messageRun E P es s1)
    (hend : runEvents es s1 = some s') :
    MessageAt s0.st.size E P s0.st.nonce (responses es) s'.st ∧
    outputs es s1 = (ctrEncrypt s0.st.size.bytes E s0.st.nonce P).take (P.length - s'.st.remain.toNat) ∧
    requests es s1 = askedAt s0.st.size s0.st.nonce (responses es) s'.st ∧
    blocksIssued es s1 = responses es + s'.st.inFlight.toNat := by
  have hst := h.st_eq
  have hbegun : MessageAt s0.st.size E P s0.st.nonce 0 s1.st := by
    rw [hst]
    exact messageAt_started (hst ▸ inv_exec h.inv h.start) h.msgLen h.not_empty
  obtain ⟨hat, hout, hasked, hissued⟩ := progress_messageRun hbegun hrun hend
  have hquiet := inv_quiet h.inv (by simp [h.idle]) (by simp [h.idle])
  have hflight : s1.st.inFlight = false := hst ▸ hquiet
  have houtst : s1.st.outst = false := (s1.st.inFlight_eq_false_iff.mp hflight).2
  rw [Nat.zero_add] at hat hasked
  refine ⟨hat, ?_, ?_, ?_⟩
  · rw [← hout, hbegun.remain]
    simp
  · rw [← hasked, askedAt, houtst]
    rfl
  · simpa [hflight] using hissued

end

namespace MessageAt

variable {z : BlockSize} {E : Bytes → Bytes} {P nonce : Bytes} {n : Nat} {c : Controller}
  (h : MessageAt z E P nonce n c)
include h

/-- In IDLE the message is complete: nothing remains, and `n` is blockCount (R141, R150). -/
theorem blocks_of_idle (hidle : c.state = .idle) : c.remain = 0 ∧ n = ceilDiv P.length z.bytes := by
  have hzero := h.inv.idle_remain hidle
  have hrem := h.remain
  have hall : P.length ≤ n * z.bytes := by
    rw [hzero] at hrem
    exact Nat.sub_eq_zero_iff_le.mp hrem.symm
  exact ⟨hzero, ((le_ceilDiv_iff z.bytes_pos).mpr h.blocks).antisymm ((ceilDiv_le_iff z.bytes_pos).mpr hall)⟩

/-- The core has been asked at most blockCount times (R158). -/
theorem asked_le : n + c.outst.toNat ≤ ceilDiv P.length z.bytes := by
  rw [le_ceilDiv_iff z.bytes_pos]
  cases hout : c.outst with
  | false => exact h.blocks
  | true =>
    have hlt := h.lt_length_of_busy (busy_of_inFlight h.inv h.listens (c.inFlight_eq_true_iff.mpr (.inr hout)))
    rw [Bool.toNat_true, Nat.add_one_mul]
    omega

/-- The blocks asked of the core are different (R157): there are at most 2^32 of them. -/
theorem nodup_askedAt (hfits : P.length ≤ 2 ^ 32 * z.bytes) : (askedAt z nonce n c).Nodup := by
  have hcount : n + c.outst.toNat ≤ 2 ^ 32 := h.asked_le.trans ((ceilDiv_le_iff z.bytes_pos).mpr hfits)
  refine List.Nodup.map_on (fun i hi j hj => ?_) List.nodup_range
  exact counterBlock_injective (counterBytes_le z) nonce ((List.mem_range.mp hi).trans_le hcount)
    ((List.mem_range.mp hj).trans_le hcount)

/-- The requests in flight are the one outstanding and the one pending (R41 (a)). -/
theorem inFlight_toNat : c.inFlight.toNat = c.outst.toNat + if c.reqPend = true then 1 else 0 := by
  have hone := h.inv.one_request
  cases hp : c.reqPend <;> cases ho : c.outst <;> simp_all [Controller.inFlight]

end MessageAt

theorem length_askedAt (z : BlockSize) (nonce : Bytes) (n : Nat) (c : Controller) :
    (askedAt z nonce n c).length = n + c.outst.toNat := by rw [askedAt, List.length_map, List.length_range]

/-- Settles O56: the state of the message after the run says it, by induction over the run's events. -/
theorem messageOutputsTheEncryption : Obligations.MessageOutputsTheEncryption := by
  intro E P s0 s1 s' es hinv hidle hnonce hlen hpos hfits hkey hstart hrun hend B n
  have hbegins : BeginsMessage P s0 s1 := ⟨hinv, hidle, hnonce, hlen, hpos, hfits, hkey, hstart⟩
  obtain ⟨hat, hout, _⟩ := hbegins.progress hrun hend
  refine ⟨hout, hat.remain, ?_, hat.output, fun hdone => ?_⟩
  · rw [hat.counter]
    exact ctrOf_counterBlock (counterBytes_le s0.st.size) s0.st.nonce n
  · obtain ⟨hzero, hcount⟩ := hat.blocks_of_idle hdone
    obtain ⟨hflag, hvalid⟩ := hat.complete hdone
    have hall : outputs es s1 = ctrEncrypt B E s0.st.nonce P := by
      rw [hout, hzero]
      exact List.take_of_length_le (length_ctrEncrypt ..).le
    exact ⟨hall, hall ▸ length_ctrEncrypt .., hcount, hflag, hvalid, hzero⟩

/-- Settles O57: both runs output an encryption under the same nonce and cipher (O56), and encrypting twice gives the
plaintext back. -/
theorem decryptionIsEncryption : Obligations.DecryptionIsEncryption := by
  intro E P s0 s1 s' u0 u1 u' es fs hinv hidle hnonce hlen hpos hfits hkey hstart hrun hend hdone
    uinv uidle unonceLen unonce usize umsgLen ukey ustart urun uend udone
  obtain ⟨_, _, _, _, hcomplete⟩ :=
    messageOutputsTheEncryption E P s0 s1 s' es hinv hidle hnonce hlen hpos hfits hkey hstart hrun hend
  obtain ⟨hout, houtLen, _⟩ := hcomplete hdone
  obtain ⟨_, _, _, _, ucomplete⟩ :=
    messageOutputsTheEncryption E (outputs es s1) u0 u1 u' fs uinv uidle (by rw [unonceLen, usize, hnonce])
      (by rw [umsgLen, hlen, houtLen]) (by rwa [houtLen]) (by rwa [houtLen, usize]) ukey ustart urun uend
  obtain ⟨uout, _⟩ := ucomplete udone
  rw [uout, hout, usize, unonce, ctrEncrypt_ctrEncrypt]

/-- Settles O58: the state of the message after the run says how often the core has been asked and for what. -/
theorem oneRequestPerBlockWithFreshCounter : Obligations.OneRequestPerBlockWithFreshCounter := by
  intro E P s0 s1 s' es hinv hidle hnonce hlen hpos hfits hkey hstart hrun hend blockCount asked
  have hbegins : BeginsMessage P s0 s1 := ⟨hinv, hidle, hnonce, hlen, hpos, hfits, hkey, hstart⟩
  obtain ⟨hat, _, hasked, hissued⟩ := hbegins.progress hrun hend
  have hasked : asked = askedAt s0.st.size s0.st.nonce (responses es) s'.st := hasked
  have hlength : asked.length = responses es + s'.st.outst.toNat := hasked ▸ length_askedAt ..
  have hblocks : blocksIssued es s1 = asked.length + if s'.st.reqPend = true then 1 else 0 := by
    rw [hissued, hat.inFlight_toNat, hlength, Nat.add_assoc]
  refine ⟨hlength ▸ hasked, hasked ▸ hat.nodup_askedAt hfits, hlength ▸ hat.asked_le, hblocks, fun hdone => ?_⟩
  have hquiet := s'.st.inFlight_eq_false_iff.mp (inv_quiet hat.inv (by simp [hdone]) (by simp [hdone]))
  have hcount : asked.length = blockCount := by
    rw [hlength, hquiet.2]
    exact (hat.blocks_of_idle hdone).2
  exact ⟨hcount, by simp [hblocks, hquiet.1, hcount]⟩

end Sys2Proof.Proofs
end

section
/-! SUPPORT. The proofs of the control family (43_control.md): NOP and ABORT, what acts in ERROR and DRAIN, and the
complete dispatch of bus writes and reads by address. -/

namespace Sys2Proof.Proofs

open Sys2Proof.Machine Sys2Proof.Safety

/-! ## NOP and ABORT (R170, R171, R173) -/

/-- Settles O33: the command and the write of its word have one meaning. -/
theorem nopChangesNothing : Obligations.NopChangesNothing := by
  have hnop (s : State) : exec .nop s = .next s := (exec_next .nop s).trans (congrArg _ (execState_nop s))
  exact ⟨rfl, fun s => ⟨hnop s, (execWrCmd_eq 0x00000000 s).trans (hnop s)⟩⟩

/-- The word 5 alone is the command ABORT (R91, R93). -/
theorem decode_cmd_eq_abort_iff (w : Word) : decode (.cmd w) = .abort ↔ w = 0x00000005 := by
  refine ⟨fun h => ?_, fun h => h ▸ rfl⟩
  obtain ⟨_, _, _, _, _, habort⟩ := word_of_decodeCmd (rfl : decodeCmd w = _)
  rw [decode] at h
  cases hm : decodeCmd w with
  | abort => exact habort hm
  | _ => rw [hm] at h; cases h

/-- A response in DRAIN with no error recorded ends in IDLE (R152, R171). -/
theorem coreRespond_state_of_drain {c : Controller} (hdrain : c.state = .drain) (herr : c.err = false) (m : Bytes)
    (e : Bool) : (c.coreRespond m e).state = .idle := by
  rw [Controller.coreRespond, hdrain, herr]
  rfl

/-- What ABORT leaves, with the two flags of a request in flight named (R171). -/
theorem abortWork_eq (c : Controller) :
    c.abortWork = { c.discardWork with
      err := false, errcode := .none
      state := if c.reqPend = true ∨ c.outst = true then .drain else .idle } := by
  simp only [Controller.abortWork, Controller.inFlight, Bool.or_eq_true]

/-- Settles O34: ABORT has no guard, and the clearing it shares with error entry keeps the request and the staging
registers. -/
theorem abortClearsErrorAndWork : Obligations.AbortClearsErrorAndWork :=
  ⟨decode_cmd_eq_abort_iff, fun _ m e hdrain herr => coreRespond_state_of_drain hdrain herr m e,
    fun s => congrArg (fun c => Host.Outcome.next (s.setSt c)) (abortWork_eq s.st)⟩

/-- A write to CMD of a word other than ABORT's has no effect in ERROR and DRAIN (R173). -/
theorem exec_wrCmd_of_deaf {s : State} (hdeaf : s.st.deaf = true) {w : Word} (hw : w ≠ 0x00000005) :
    exec (.wrCmd w) s = .next s := (if_pos hdeaf).trans (if_neg hw)

/-- Settles O35: the write to CMD tests the state before the word, and a command issued alone does what its write
does. -/
theorem onlyAbortActsInErrorAndDrain : Obligations.OnlyAbortActsInErrorAndDrain := by
  intro s w hstate
  have hdeaf : s.st.deaf = true := s.st.deaf_eq_true_iff.mpr hstate
  refine ⟨execWrCmd_eq 0x00000005 s, fun hw => ?_, exec_guarded_of_deaf (i := .wrCtr w) rfl hdeaf⟩
  have hwrite : exec (.wrCmd w) s = .next s := exec_wrCmd_of_deaf hdeaf hw
  exact ⟨hwrite, mt (decode_cmd_eq_abort_iff w).mp hw, (execWrCmd_eq w s).symm.trans hwrite⟩

/-! ## Fields of words as numbers (R23, R24, R95) -/

/-- The bits of a value from bit `i` on, as a number. -/
theorem extractLsb'_eq_ofNat {n : Nat} (v : BitVec n) (i k : Nat) :
    v.extractLsb' i k = BitVec.ofNat k (v.toNat / 2 ^ i) :=
  congrArg (BitVec.ofNat k) (Nat.shiftRight_eq_div_pow v.toNat i)

/-- Two words side by side, as a number. -/
theorem append_eq_ofNat (hi lo : Word) : hi ++ lo = BitVec.ofNat 64 (hi.toNat * 2 ^ 32 + lo.toNat) := by
  have hhi := hi.isLt
  have hlo := lo.isLt
  apply BitVec.eq_of_toNat_eq
  rw [BitVec.toNat_append, ← Nat.shiftLeft_add_eq_or_of_lt hlo, Nat.shiftLeft_eq, BitVec.toNat_ofNat]
  omega

/-- MSG_LEN with a new low word, as a number (R175). -/
theorem msgLen_low_eq_ofNat (v : BitVec 64) (d : Word) :
    v.extractLsb' 32 32 ++ d = BitVec.ofNat 64 (v.toNat / 2 ^ 32 * 2 ^ 32 + d.toNat) := by
  have hv : v.toNat / 2 ^ 32 < 2 ^ 32 := by have hlt := v.isLt; omega
  rw [append_eq_ofNat, extractLsb'_eq_ofNat, BitVec.toNat_ofNat, Nat.mod_eq_of_lt hv]

/-- MSG_LEN with a new high word, as a number (R175). -/
theorem msgLen_high_eq_ofNat (v : BitVec 64) (d : Word) :
    d ++ v.extractLsb' 0 32 = BitVec.ofNat 64 (d.toNat * 2 ^ 32 + v.toNat % 2 ^ 32) := append_eq_ofNat d _

/-- A field of `m` bits that is put above a word below 2^i adds 2^i times its value. -/
theorem toNat_or_field {x : Word} {i m n : Nat} (hx : x.toNat = n) (hn : n < 2 ^ i) (hfit : m + i ≤ 32)
    (v : BitVec m) : (x ||| v.setWidth 32 <<< i).toNat = n + 2 ^ i * v.toNat := by
  have hv : v.toNat < 2 ^ m := v.isLt
  have hm : 2 ^ m ≤ 2 ^ 32 := Nat.pow_le_pow_right (by decide) (by omega)
  have hshift : v.toNat * 2 ^ i < 2 ^ 32 :=
    calc v.toNat * 2 ^ i < 2 ^ m * 2 ^ i := Nat.mul_lt_mul_of_pos_right hv (Nat.two_pow_pos i)
      _ = 2 ^ (m + i) := (Nat.pow_add 2 m i).symm
      _ ≤ 2 ^ 32 := Nat.pow_le_pow_right (by decide) hfit
  rw [BitVec.toNat_or, BitVec.toNat_shiftLeft, BitVec.toNat_setWidth, Nat.mod_eq_of_lt (hv.trans_le hm),
    Nat.shiftLeft_eq, Nat.mod_eq_of_lt hshift, hx, Nat.or_comm, Nat.mul_comm, ← Nat.two_pow_add_eq_or_of_lt hn,
    Nat.add_comm]

/-- STATUS as a number (R24). -/
theorem toNat_statusWord (c : Controller) :
    (statusWord c).toNat = c.state.code.toNat + 8 * c.ctrv.toNat + 16 * c.doutv.toNat + 32 * c.done.toNat
      + 64 * c.err.toNat + 256 * c.errcode.code.toNat := by
  have hcode := c.state.code.isLt
  have hctrv := c.ctrv.toNat_lt
  have hdoutv := c.doutv.toNat_lt
  have hdone := c.done.toNat_lt
  have herr := c.err.toNat_lt
  have hflag {x : Word} {n i : Nat} (hx : x.toNat = n) (hn : n < 2 ^ i) (hi : i < 32) (f : Bool) :
      (x ||| flagBit f i).toNat = n + 2 ^ i * f.toNat := by
    rw [flagBit, toNat_or_field hx hn (by omega), BitVec.toNat_ofBool]
  have hstate : (c.state.code.setWidth 32).toNat = c.state.code.toNat := BitVec.toNat_setWidth_of_le (by decide)
  have hctrvBit := hflag (i := 3) hstate (by omega) (by decide) c.ctrv
  have hdoutvBit := hflag (i := 4) hctrvBit (by omega) (by decide) c.doutv
  have hdoneBit := hflag (i := 5) hdoutvBit (by omega) (by decide) c.done
  have herrBit := hflag (i := 6) hdoneBit (by omega) (by decide) c.err
  exact toNat_or_field (i := 8) herrBit (by omega) (by decide) c.errcode.code

/-- STATUS read as a word (R24). -/
theorem statusWord_eq_ofNat (c : Controller) :
    statusWord c = BitVec.ofNat 32 (c.state.code.toNat + 8 * c.ctrv.toNat + 16 * c.doutv.toNat + 32 * c.done.toNat
      + 64 * c.err.toNat + 256 * c.errcode.code.toNat) := by
  rw [← toNat_statusWord, BitVec.ofNat_toNat, BitVec.setWidth_eq]

/-- PARAM as a number (R23). -/
theorem paramWord_eq_ofNat (c : Controller) :
    paramWord c = BitVec.ofNat 32 ((c.size.bytes - 4) * 256 + c.size.bytes) := by
  unfold paramWord
  cases c.size <;> rfl

/-! ## Window slots by number (R62) -/

/-- An aligned offset within the eight slots of a window is that of a slot. -/
theorem exists_slot_of_offset {a : BitVec 8} (base : BitVec 8) (hbase : base.toNat ≤ 0xE0 ∧ base.toNat % 4 = 0)
    (halign : a.toNat % 4 = 0) (hwindow : base.toNat ≤ a.toNat ∧ a.toNat < base.toNat + 0x20) :
    ∃ k : Fin 8, a = windowAddr base k ∧ k.val = (a.toNat - base.toNat) / 4 := by
  refine ⟨⟨(a.toNat - base.toNat) / 4, by omega⟩, BitVec.eq_of_toNat_eq ?_, rfl⟩
  rw [toNat_windowAddr hbase.1, Fin.val_mk]
  omega

/-- A slot of the counter block window reads its word, or 0 where it is not implemented (R68, R176). -/
theorem readReg_ctrblk (c : Controller) (k : Fin 8) :
    readReg c (.ctrblk k) = if k.val < c.size.bw then wordAt c.ctrblk k.val else 0 := by
  by_cases hk : k.val < c.size.bw <;> simp [readReg, Reg.implemented, hk]

/-- A slot of the output window, in the same way. -/
theorem readReg_dout (c : Controller) (k : Fin 8) :
    readReg c (.dout k) = if k.val < c.size.bw then wordAt c.dout k.val else 0 := by
  by_cases hk : k.val < c.size.bw <;> simp [readReg, Reg.implemented, hk]

/-- A read in a window of `m` implemented slots on the buffer `buf` (R176). -/
theorem busRead_window {c : Controller} {a : BitVec 8} (base : BitVec 8) {reg : Fin 8 → Reg} {m : Nat} {buf : Bytes}
    (hoffset : ∀ k, (reg k).offset = windowAddr base k)
    (hread : ∀ k, readReg c (reg k) = if k.val < m then wordAt buf k.val else 0)
    (hbase : base.toNat ≤ 0xE0 ∧ base.toNat % 4 = 0) (halign : a.toNat % 4 = 0)
    (hwindow : base.toNat ≤ a.toNat ∧ a.toNat < base.toNat + 0x20) :
    busRead c a = if (a.toNat - base.toNat) / 4 < m then wordAt buf ((a.toNat - base.toNat) / 4) else 0 := by
  obtain ⟨k, ha, hk⟩ := exists_slot_of_offset base hbase halign hwindow
  rw [← hk, ← hread, ← busRead_offset, hoffset, ha]

/-! ## The dispatch by address (R175, R176) -/

/-- A write to an implemented slot of the nonce window, by address (R175). -/
theorem exec_write_nonceWindow {s : State} {a : BitVec 8} (halign : a.toNat % 4 = 0)
    (h : 0x40 ≤ a.toNat ∧ a.toNat < 0x40 + 4 * s.st.size.nw) (d : Word) :
    exec (decodeBus ⟨true, a, d⟩) s = .next (s.setSt
      { s.st with nonce := setWord s.st.size.nonceBytes s.st.nonce ((a.toNat - 0x40) / 4) d }) := by
  obtain ⟨_, _, _, _, hnw⟩ := s.st.size.facts
  have htop : a.toNat < 0x60 := by omega
  obtain ⟨k, ha, hk⟩ := exists_slot_of_offset 0x40 (by decide) halign ⟨h.1, htop⟩
  have hk : k.val = (a.toNat - 0x40) / 4 := hk
  have hdecode : decodeBus ⟨true, a, d⟩ = .wrNonce k d := ha ▸ Laws.RoundTrip.wrNonce k d rfl
  rw [hdecode, exec_wrNonce_implemented (by omega), hk]

/-- A write to an implemented slot of the input window, by address (R175). -/
theorem exec_write_dinWindow {s : State} {a : BitVec 8} (halign : a.toNat % 4 = 0)
    (h : 0x80 ≤ a.toNat ∧ a.toNat < 0x80 + s.st.size.bytes) (d : Word) :
    exec (decodeBus ⟨true, a, d⟩) s = .next (s.setSt
      { s.st with din := setWord s.st.size.bytes s.st.din ((a.toNat - 0x80) / 4) d }) := by
  obtain ⟨hbytes, hbw, _, _, hnw⟩ := s.st.size.facts
  have htop : a.toNat < 0xA0 := by omega
  obtain ⟨k, ha, hk⟩ := exists_slot_of_offset 0x80 (by decide) halign ⟨h.1, htop⟩
  have hk : k.val = (a.toNat - 0x80) / 4 := hk
  have hdecode : decodeBus ⟨true, a, d⟩ = .wrDin k d := ha ▸ Laws.RoundTrip.wrDin k d rfl
  rw [hdecode, exec_wrDin_implemented (by omega), hk]

/-- Settles O38, address by address in R175's order: what no row names is misaligned, reserved or read-only (O40). -/
theorem busWriteDispatch : Obligations.BusWriteDispatch := by
  intro s a d n
  obtain ⟨hmisaligned, hreserved, hreadOnly, _⟩ := ignoredAccesses s a d
  have hat {b : Nat} (h : n = b) : a = BitVec.ofNat 8 b := by rw [← h, BitVec.ofNat_toNat, BitVec.setWidth_eq]
  split_ifs with hmis h08 h10 h14 h18 h1C h28 hnonce hdin
  · exact (hmisaligned hmis).1
  · rw [hat h08]; rfl
  · rw [hat h10]; rfl
  · rw [hat h14]; rfl
  · rw [hat h18, ← msgLen_low_eq_ofNat]; rfl
  · rw [hat h1C, ← msgLen_high_eq_ofNat]; rfl
  · rw [hat h28]; rfl
  · exact exec_write_nonceWindow (by omega) hnonce d
  · exact exec_write_dinWindow (by omega) hdin d
  · obtain ⟨hbytes, _⟩ := s.st.size.facts
    have hunnamed : (n = 0x00 ∨ n = 0x04 ∨ n = 0x0C ∨ n = 0x20 ∨ n = 0x24 ∨ (0x60 ≤ n ∧ n < 0x80) ∨ 0xA0 ≤ n) ∨
        (0x2C ≤ n ∧ n < 0x40) ∨ (0x40 + (s.st.size.bytes - 4) ≤ n ∧ n < 0x60) ∨
        (0x80 + s.st.size.bytes ≤ n ∧ n < 0xA0) := by omega
    rcases hunnamed with h | h | h | h
    · exact hreadOnly h
    · exact (hreserved (.inl h)).1
    · exact (hreserved (.inr (.inl h))).1
    · exact (hreserved (.inr (.inr (.inr (.inl h))))).1

/-- A vacant address reads 0 (R67, R68). -/
theorem busRead_of_vacant {s : State} {a : BitVec 8} (h : Vacant s.st.size a) : busRead s.st a = 0 :=
  congrArg State.busRdata (Host.Outcome.next.inj (exec_rd_of_vacant h))

/-- Every DOUT word reads 0 while DOUTV is 0 (R26, R176). -/
theorem busRead_dout_of_not_doutv {s : State} {a : BitVec 8} (hinv : Inv s.st) (hclear : s.st.doutv = false)
    (hwindow : 0xA0 ≤ a.toNat ∧ a.toNat < 0xC0) : busRead s.st a = 0 := by
  by_cases halign : a.toNat % 4 = 0
  · rw [busRead_window 0xA0 (fun _ => rfl) (readReg_dout s.st) (by decide) halign hwindow,
      hinv.no_output hclear, wordAt_zeroBytes, ite_self]
  · exact busRead_of_vacant (vacant_of_misaligned _ halign)

/-- A value is that of a conditional when it is that of each branch. -/
theorem eq_ite_of_imp {α : Type} {p : Prop} [Decidable p] {x y z : α} (hpos : p → x = y) (hneg : ¬ p → x = z) :
    x = if p then y else z :=
  (ite_eq_iff'.mpr ⟨fun h => (hpos h).symm, fun h => (hneg h).symm⟩).symm

/-- Settles O39, address by address in R176's order; what no row names is CMD, which reads 0, or reserved. -/
theorem busReadDispatch : Obligations.BusReadDispatch := by
  intro s a n c bw
  refine ⟨congrArg (fun v => Host.Outcome.next (s.setRdata v)) ?_,
    fun hinv hclear hlow hhigh => busRead_dout_of_not_doutv hinv hclear ⟨hlow, hhigh⟩⟩
  have hreg {r : Reg} (h : n = r.offset.toNat) : busRead c a = readReg c r := by
    rw [BitVec.eq_of_toNat_eq h, busRead_offset]
  refine eq_ite_of_imp (fun hmis => busRead_of_vacant (vacant_of_misaligned _ hmis)) fun hmis => ?_
  have halign : n % 4 = 0 := not_not.mp hmis
  refine eq_ite_of_imp (fun h => hreg (r := .id) h) fun h00 => ?_
  refine eq_ite_of_imp (fun h => (hreg (r := .param) h).trans (paramWord_eq_ofNat c)) fun h04 => ?_
  refine eq_ite_of_imp (fun h => (hreg (r := .status) h).trans (statusWord_eq_ofNat c)) fun h0C => ?_
  refine eq_ite_of_imp (fun h => (hreg (r := .inten) h).trans (BitVec.ofNat_toNat 32 c.inten).symm) fun h10 => ?_
  refine eq_ite_of_imp (fun h => (hreg (r := .nonceLen) h).trans (BitVec.ofNat_toNat 32 c.nonceLen).symm) fun h14 => ?_
  refine eq_ite_of_imp (fun h => hreg (r := .msgLenLo) h) fun h18 => ?_
  refine eq_ite_of_imp (fun h => (hreg (r := .msgLenHi) h).trans (extractLsb'_eq_ofNat c.msgLen 32 32)) fun h1C => ?_
  refine eq_ite_of_imp (fun h => hreg (r := .remainLo) h) fun h20 => ?_
  refine eq_ite_of_imp (fun h => (hreg (r := .remainHi) h).trans (extractLsb'_eq_ofNat c.remain 32 32)) fun h24 => ?_
  refine eq_ite_of_imp (fun h => hreg (r := .ctr) h) fun h28 => ?_
  refine eq_ite_of_imp (busRead_window 0x40 (fun _ => rfl) (readReg_nonce c) (by decide) halign) fun hnonce => ?_
  refine eq_ite_of_imp (busRead_window 0x60 (fun _ => rfl) (readReg_ctrblk c) (by decide) halign) fun hctrblk => ?_
  refine eq_ite_of_imp (busRead_window 0x80 (fun _ => rfl) (readReg_din c) (by decide) halign) fun hdin => ?_
  refine eq_ite_of_imp (busRead_window 0xA0 (fun _ => rfl) (readReg_dout c) (by decide) halign) fun hdout => ?_
  by_cases hcmd : n = 0x08
  · exact hreg (r := .cmd) hcmd
  · have hbytes := c.size.bytes_le
    have hreserved : (0x2C ≤ n ∧ n < 0x40) ∨ 0xA0 + c.size.bytes ≤ n := by omega
    exact busRead_of_vacant (vacant_of_reserved (hreserved.imp_right fun h => .inr (.inr (.inr h))))

end Sys2Proof.Proofs
end

section
/-! SUPPORT. The proofs of the exception family (60_exceptions.md): every step answers, error entry and the interrupt
line, which error a command raises, and what leaves an error. -/

namespace Sys2Proof.Proofs

open Sys2Proof.Machine Sys2Proof.Safety

/-! ## Every step answers (R206) -/

/-- Only a read changes bus_rdata (R21, R70). -/
theorem execState_busRdata (i : Instr) (s : State) :
    (execState i s).busRdata = s.busRdata ∨ ∃ a, i = .rd a := by
  have hcmd (m : Cmd) (w : Word) : (execState (m.instr w) s).busRdata = s.busRdata := by cases m <;> rfl
  cases i with
  | rd a => exact .inr ⟨a, rfl⟩
  | wrCmd d => rw [execState_wrCmd]; exact .inl (hcmd _ d)
  | wrNonce k d => simp only [execState, exec, execWrNonce]; split <;> exact .inl rfl
  | wrDin k d => simp only [execState, exec, execWrDin]; split <;> exact .inl rfl
  | _ => exact .inl rfl

/-- The events of a cycle leave the inputs and the cycle count to the clock edge. -/
theorem cycleState_inputs_cycle (s : State) : (cycleState s).inputs = s.inputs ∧ (cycleState s).cycle = s.cycle := by
  unfold cycleState
  split_ifs <;> simp

/-- Settles O6: a step is the events of a cycle and then its clock edge, and no instruction stops the machine. -/
theorem everyStepAnswersNext : Obligations.EveryStepAnswersNext := by
  refine ⟨fun s => ?_, fun i s => ?_⟩
  · obtain ⟨hinputs, hcycle⟩ := cycleState_inputs_cycle s
    exact ⟨_, step_eq s, congrArg List.tail hinputs, congrArg (· + 1) hcycle⟩
  · exact ⟨_, exec_next i s, execState_inputs i s, execState_cycle i s, execState_busRdata i s⟩

/-! ## Error entry and the interrupt line (R209, R220) -/

/-- Settles O46: error entry tests ERR, and what it leaves otherwise is the state R209 lists. -/
theorem errorEntryRecordsAndClears : Obligations.ErrorEntryRecordsAndClears :=
  fun _ code => ⟨fun herr => Controller.raiseError_of_err herr code,
    fun herr => Controller.raiseError_eq_errorState herr code⟩

/-- Settles O50: the line is the disjunction of the three flags, each masked by its enable bit. -/
theorem interruptLineFollowsEnabledFlags : Obligations.InterruptLineFollowsEnabledFlags := by
  intro c
  simp only [Controller.irq, Bool.or_eq_true, Bool.and_eq_true, or_assoc]

/-! ## The code a command records (R205, R210, R211) -/

/-- Error entry with no error recorded records its code. -/
theorem errcode_raiseError {c : Controller} (h : c.err = false) (code : ErrCode) :
    (c.raiseError code).errcode = code := by
  rw [Controller.raiseError_of_no_err h]

/-- A controller that listens to commands has no code recorded (R41 (f)). -/
theorem errcode_of_listening {c : Controller} (h : Inv c) (hd : c.deaf = false) : c.errcode = .none :=
  h.err_iff.mp (inv_err_false h hd)

section
variable {c : Controller} (h : Inv c) (hd : c.deaf = false)
include h hd

/-- A guarded command records SEQUENCE where it is not legal, and otherwise what its own rule records (R210). -/
theorem errcode_guarded (ok : Bool) (run : Controller → Controller) :
    (c.guarded ok run).errcode = if ok then (run c).errcode else .sequence := by
  cases ok with
  | true => rw [Controller.guarded_ok hd, if_pos rfl]
  | false => rw [Controller.guarded_illegal hd, errcode_raiseError (inv_err_false h hd), if_neg (by decide)]

/-- INIT's own rule records only a wrong nonce length (R110). -/
theorem errcode_runInit :
    c.runInit.errcode = if c.nonceLen.toNat ≠ c.size.bytes - 4 then .invalidNonceLength else .none := by
  have hnone := errcode_of_listening h hd
  by_cases hn : c.nonceLen.toNat = c.size.bytes - 4
  · rw [runInit_of_nonceLen hn, if_neg (not_not.mpr hn)]
    exact hnone
  · rw [runInit_of_nonceLen_ne hn, if_pos hn, errcode_raiseError (inv_err_false h hd)]

/-- START's own rule records the first of its checks that fails (R140, R211). -/
theorem errcode_runStart (k : Bool) :
    (c.runStart k).errcode =
      if c.nonceLen.toNat ≠ c.size.bytes - 4 then .invalidNonceLength
      else if c.msgLen.toNat > 2 ^ 32 * c.size.bytes then .plaintextTooLarge
      else if k then .keySetup else .none := by
  have hnone := errcode_of_listening h hd
  have hraise := errcode_raiseError (inv_err_false h hd)
  by_cases hn : c.nonceLen.toNat = c.size.bytes - 4
  · rw [if_neg (not_not.mpr hn)]
    by_cases hm : c.msgLen.toNat > 2 ^ 32 * c.size.bytes
    · rw [runStart_of_too_long hn hm, if_pos hm, hraise]
    · rw [runStart_of_lengths hn (Nat.not_lt.mp hm), if_neg hm]
      cases k with
      | true => exact hraise .keySetup
      | false => exact hnone
  · rw [runStart_of_nonceLen_ne hn, if_pos hn, hraise]

end

/-- INC, and a CTR write with it, is not legal outside IDLE with CTRV = 1 (R210). -/
theorem legal_inc_eq_false {c : Controller} (h : ¬ (c.state = .idle ∧ c.ctrv = true)) : legal .inc c = false := by
  simpa [legal] using h

/-- Settles O37: each of these instructions is guarded by the legality table, and NOP and ABORT record nothing. -/
theorem legalityTableRaisesSequence : Obligations.LegalityTableRaisesSequence := by
  intro s d hinv hstate
  have hd : s.st.deaf = false := s.st.deaf_eq_false_iff.mpr hstate
  refine ⟨fun i hi => ?_, fun i t hi hexec => ?_⟩
  · rcases hi with ⟨rfl, h⟩ | ⟨rfl, h⟩ | ⟨rfl, h⟩ | ⟨rfl, h⟩ | ⟨rfl, h⟩
    · exact exec_guarded_of_not_legal (i := .init) rfl hinv hd (decide_eq_false h)
    · exact exec_guarded_of_not_legal (i := .start) rfl hinv hd (decide_eq_false h)
    · exact exec_guarded_of_not_legal (i := .inc) rfl hinv hd (legal_inc_eq_false h)
    · exact exec_guarded_of_not_legal (i := .wrCtr d) rfl hinv hd (legal_inc_eq_false h)
    · exact exec_guarded_of_not_legal (i := .block) rfl hinv hd (decide_eq_false h)
  · rw [← execState_of_exec hexec]
    rcases hi with rfl | rfl
    · rw [execState_nop]
      exact inv_err_false hinv hd
    · rfl

/-- Settles O47: the decoder comes first, then the legality table, then the command's own checks in their order. -/
theorem firstErrorInOrderIsRaised : Obligations.FirstErrorInOrderIsRaised := by
  intro s w hinv hstate
  have hd : s.st.deaf = false := s.st.deaf_eq_false_iff.mpr hstate
  have hnone := errcode_of_listening hinv hd
  have hguarded := errcode_guarded hinv hd
  obtain ⟨hnop, hinit, hinc, hstart, hblock, habort⟩ := word_of_decodeCmd (rfl : decodeCmd w = _)
  refine ⟨_, exec_next _ s, ?_⟩
  rw [execState_wrCmd]
  cases hm : decodeCmd w with
  | illegal =>
    rw [if_pos rfl, Cmd.instr, execState_of_exec (exec_illegal_of_not_deaf hinv hd w)]
    rfl
  | nop =>
    obtain rfl := hnop hm
    refine (congrArg (fun t => t.st.errcode) (execState_nop s)).trans ?_
    simp [hnone]
  | init =>
    obtain rfl := hinit hm
    refine (hguarded (legal .init s.st) Controller.runInit).trans ?_
    simp [legal, errcode_runInit hinv hd]
  | inc =>
    obtain rfl := hinc hm
    refine (hguarded (legal .inc s.st) Controller.runInc).trans ?_
    cases hv : s.st.ctrv <;> simp [legal, Controller.runInc, hnone, hv]
  | start =>
    obtain rfl := hstart hm
    refine (hguarded (legal .start s.st) (Controller.runStart s.ports.coreKeyErr)).trans ?_
    simp [legal, errcode_runStart hinv hd]
  | block =>
    obtain rfl := hblock hm
    refine (hguarded (legal .block s.st) Controller.runBlock).trans ?_
    simp [legal, Controller.runBlock, hnone]
  | abort =>
    obtain rfl := habort hm
    rfl

/-! ## START's limit (R141) -/

/-- Settles O25: START's own rule compares the length in bytes, and of its codes only PLAINTEXT_TOO_LARGE stands for
that. -/
theorem blockCountLimit : Obligations.BlockCountLimit := by
  have hlimit (z : BlockSize) (L : Nat) : ceilDiv L z.bytes > 2 ^ 32 ↔ L > 2 ^ 32 * z.bytes := by
    rw [gt_iff_lt, gt_iff_lt, ← not_le, ← not_le, ceilDiv_le_iff z.bytes_pos]
  refine ⟨hlimit, fun s hinv hidle hn => ⟨_, exec_start_of_idle hidle, ?_⟩⟩
  rw [hlimit, State.setSt_st, errcode_runStart hinv (deaf_false_of_idle hidle), if_neg (not_not.mpr hn)]
  by_cases hm : s.st.msgLen.toNat > 2 ^ 32 * s.st.size.bytes
  · rw [if_pos hm]
    exact iff_of_true rfl hm
  · rw [if_neg hm]
    refine iff_of_false ?_ hm
    split <;> nofun

/-! ## What leaves an error (R214, R215) -/

/-- In ERROR and DRAIN the host's write changes neither the state nor what is recorded, unless it is ABORT (R173). -/
theorem writeEffect_of_deaf {p : Ports} {c d : Controller} (hdeaf : c.deaf = true) (e : WriteEffect p c d) :
    (d.state = c.state ∧ d.err = c.err ∧ d.errcode = c.errcode) ∨ (writes p 0x08 5 ∧ d = c.abortWork) := by
  have hlistens : ¬ c.deaf = false := by simp [hdeaf]
  have hidle : ¬ c.state = .idle := mt deaf_false_of_idle hlistens
  cases e with
  | staging _ _ _ _ _ hd => rw [hd]; exact .inl ⟨rfl, rfl, rfl⟩
  | ctr _ _ hi _ _ => exact absurd hi hidle
  | ctrError _ _ hl _ => exact absurd hl hlistens
  | command w hw e =>
    cases e with
    | same hd => rw [hd]; exact .inl ⟨rfl, rfl, rfl⟩
    | error _ _ hl _ => exact absurd hl hlistens
    | init _ hi _ _ => exact absurd hi hidle
    | inc _ hi _ _ => exact absurd hi hidle
    | start _ hi _ _ _ => exact absurd hi hidle
    | block _ hready _ => exact absurd (c.deaf_eq_false_iff.mpr (.inr (.inl hready))) hlistens
    | abort hword hd => exact .inr ⟨hword ▸ hw, hd⟩

/-- The core's part keeps a recorded error: in DRAIN a response with another one is discarded (R152, R215). -/
theorem corePhase_err {c : Controller} (h : Inv c) (herr : c.err = true) (p : Ports) :
    (c.corePhase p).err = true ∧ (c.corePhase p).errcode = c.errcode := by
  have hbusy : ¬ c.state = .busy := fun hs => by
    obtain ⟨_, _, _, hclear⟩ := h.busy hs
    rw [hclear] at herr
    cases herr
  cases corePhase_effect h p with
  | same hd _ _ => rw [hd]; exact ⟨herr, rfl⟩
  | accept hd _ _ _ _ => rw [hd]; exact ⟨herr, rfl⟩
  | complete _ _ hs _ _ _ => exact absurd hs hbusy
  | fail _ _ hs _ _ _ => exact absurd hs hbusy
  | discard hd _ _ _ _ => rw [hd]; exact ⟨herr, rfl⟩

/-- With no request in flight the core does nothing (R148, R153). -/
theorem corePhase_of_not_inFlight {c : Controller} (h : c.inFlight = false) (p : Ports) : c.corePhase p = c := by
  obtain ⟨hpend, hout⟩ := c.inFlight_eq_false_iff.mp h
  simp [Controller.corePhase, hpend, hout]

/-- ABORT with no request in flight ends in IDLE (R171). -/
theorem abortWork_state_of_not_inFlight {c : Controller} (h : c.inFlight = false) : c.abortWork.state = .idle := by
  simp [Controller.abortWork, h]

/-- ABORT with a request in flight waits in DRAIN (R171). -/
theorem abortWork_state_of_inFlight {c : Controller} (h : c.inFlight = true) : c.abortWork.state = .drain := by
  simp [Controller.abortWork, h]

/-- Settles O48: in ERROR the core has nothing to do, and of the host's writes only ABORT acts. -/
theorem onlyAbortOrResetLeavesError : Obligations.OnlyAbortOrResetLeavesError := by
  refine ⟨fun s s' hinv herror hstep hleft => ?_, fun s t hinv hexec => ?_⟩
  · have hquiet : s.st.inFlight = false := inv_quiet hinv (by simp [herror]) (by simp [herror])
    rcases step_effect hstep with ⟨hrst, hreset⟩ | ⟨_, hwrite⟩
    · exact ⟨.inl hrst, congrArg Controller.state hreset⟩
    · rw [corePhase_of_not_inFlight hquiet] at hwrite
      rcases writeEffect_of_deaf (s.st.deaf_eq_true_iff.mpr (.inl herror)) hwrite with ⟨hstate, _⟩ | ⟨habort, hst⟩
      · exact absurd (hstate.trans herror) hleft
      · exact ⟨.inr habort, hst ▸ abortWork_state_of_not_inFlight hquiet⟩
  · rw [← execState_of_exec hexec]
    refine ⟨rfl, rfl, rfl, rfl, rfl, rfl, fun hdrain => ?_⟩
    have hstate : s.st.abortWork.state = .drain :=
      abortWork_state_of_inFlight (hinv.in_flight_iff.mp (.inr hdrain))
    exact ⟨hstate, coreRespond_state_of_drain hstate rfl⟩

/-- Settles O49: neither the core's part nor a write other than ABORT touches a recorded error. -/
theorem firstErrorStays : Obligations.FirstErrorStays := by
  intro s s' hinv herr hstep hrst habort
  obtain ⟨hcoreErr, hcoreCode⟩ := corePhase_err hinv herr s.ports
  have hdeaf := (inv_corePhase hinv s.ports).err_where hcoreErr
  rcases step_effect hstep with ⟨hreset, _⟩ | ⟨_, hwrite⟩
  · rw [hrst] at hreset; cases hreset
  · rcases writeEffect_of_deaf hdeaf hwrite with ⟨_, hkeepErr, hkeepCode⟩ | ⟨hw, _⟩
    · exact ⟨hkeepErr.trans hcoreErr, hkeepCode.trans hcoreCode⟩
    · exact absurd hw habort

/-! ## A response and a command in one cycle (R212) -/

/-- A cycle that writes a word to CMD is the core's part and then that write (R40). -/
theorem step_of_cmdWrite {s s' : State} {w : Word} (hrst : s.ports.rst = false) (hw : writes s.ports 0x08 w)
    (hstep : step s = .next s') :
    ∃ t, t.st = s.st.corePhase s.ports ∧ t.ports = s.ports ∧ s'.st = (execState (.wrCmd w) t).st := by
  obtain ⟨hsel, hwe, haddr, hdata⟩ := hw
  refine ⟨(s.setRdata (cycleRdata s)).setSt (s.st.corePhase s.ports), rfl, rfl, ?_⟩
  rw [step_next hstep, State.endCycle_st, cycleState_of_write (by simp [hrst]) (by simp [hsel, hwe]), cycleWrite, haddr,
    hdata]
  rfl

/-- Settles O53: the response leaves ERROR, IDLE or READY, and there the write does what it does in that state. -/
theorem responseActsBeforeWriteInOneCycle : Obligations.ResponseActsBeforeWriteInOneCycle := by
  intro s s' w hinv hbusy htaken hrst hw hstep
  obtain ⟨t, hcore, hports, hst⟩ := step_of_cmdWrite hrst hw hstep
  have hpend := inv_reqPend_false hinv htaken.2
  rw [corePhase_of_responseTaken hinv htaken, coreRespond_of_busy hbusy] at hcore
  have hfail (he : s.ports.coreRspErr = true) : t.st = errorState .keySetup s.st.endRequest ∧ t.st.state = .error := by
    rw [he, if_pos rfl, endRequest_raiseError hinv hbusy] at hcore
    rw [hcore]
    simp [errorState, hpend]
  refine ⟨fun he hne => ?_, fun he hw5 => ?_, fun he hlast hw3 hn hm hk => ?_, fun he hmore hw4 => ?_⟩
  · obtain ⟨hentry, herror⟩ := hfail he
    have hnext := exec_wrCmd_of_deaf (t.st.deaf_eq_true_iff.mpr (.inl herror)) hne
    rw [hst, execState_of_exec hnext]
    exact ⟨hentry, herror⟩
  · obtain ⟨hentry, herror⟩ := hfail he
    subst hw5
    rw [execState_wrCmd] at hst
    have habort : s'.st = t.st.abortWork := hst
    rw [habort]
    refine ⟨abortWork_state_of_not_inFlight ?_, rfl⟩
    rw [hentry]
    exact s.st.endRequest_inFlight.trans hpend
  · subst hw3
    rw [he, completeBlock_eq hinv hbusy] at hcore
    have hidle : t.st.state = .idle := by rw [hcore]; exact if_pos hlast
    rw [execState_wrCmd] at hst
    have hnext := exec_start_of_checks hidle (by rw [hcore]; exact hn) (by rw [hcore]; exact hm) (hports ▸ hk)
    have hstart : s'.st = startedMessage t.st := hst.trans (congrArg State.st (execState_of_exec hnext))
    rw [hstart, hcore]
    exact ⟨rfl, rfl, rfl, rfl⟩
  · subst hw4
    rw [he, completeBlock_eq hinv hbusy] at hcore
    have hready : t.st.state = .ready := by rw [hcore]; exact if_neg hmore
    rw [execState_wrCmd] at hst
    have hblock : s'.st = t.st.runBlock :=
      hst.trans (congrArg State.st (execState_of_exec (exec_block_of_ready hready)))
    rw [hblock, hcore]
    exact ⟨rfl, rfl, rfl, rfl, rfl⟩

end Sys2Proof.Proofs
end

section
/-! SUPPORT. The proofs of the reset and hazard family (70_reset_and_hazards.md): the cycle with rst = 1, the registers
after it, the staging registers beside the block in flight, and the timing of a block. -/

namespace Sys2Proof.Proofs

open Sys2Proof.Machine Sys2Proof.Safety

/-! ## Reset (R250) -/

/-- A cycle with rst = 1 leaves R250's values, and what stood at the address it reads (R40). -/
theorem step_of_reset {s : State} (hrst : s.ports.rst = true) :
    ∃ s', step s = .next s' ∧ s'.st = Controller.resetOf s.st.size ∧ s'.busRdata = cycleRdata s := by
  refine ⟨_, step_eq s, ?_⟩
  rw [cycleState_of_reset hrst]
  exact ⟨rfl, rfl⟩

/-- A read drives the register at its address on bus_rdata (R21). -/
theorem cycleRdata_of_read {s : State} (hsel : s.ports.busSel = true) (hwe : s.ports.busWe = false) :
    cycleRdata s = busRead s.st s.ports.busAddr := by
  simp [cycleRdata, hsel, hwe]

/-- A window of `m` slots on a cleared buffer reads 0, in the slots that are implemented and in the others. -/
theorem windowWord_zeroBytes (n m k : Nat) : (if k < m then wordAt (zeroBytes n) k else 0) = 0 := by
  rw [wordAt_zeroBytes, ite_self]

/-- Every register but ID and PARAM reads 0 after reset (R250). -/
theorem readReg_resetOf (z : BlockSize) {r : Reg} (hid : r ≠ .id) (hparam : r ≠ .param) :
    readReg (Controller.resetOf z) r = 0 := by
  cases r with
  | id => exact absurd rfl hid
  | param => exact absurd rfl hparam
  | status => exact statusWord_resetOf z
  | ctr => exact ctrOf_zeroBytes z.bytes z.bytes
  | msgLenHi | remainHi => exact BitVec.extractLsb'_zero
  | nonce k => exact (readReg_nonce _ k).trans (windowWord_zeroBytes _ _ _)
  | ctrblk k => exact (readReg_ctrblk _ k).trans (windowWord_zeroBytes _ _ _)
  | din k => exact (readReg_din _ k).trans (windowWord_zeroBytes _ _ _)
  | dout k => exact (readReg_dout _ k).trans (windowWord_zeroBytes _ _ _)
  | _ => rfl

/-- Every address but those of ID and PARAM reads 0 after reset: it names another register, or none (R250). -/
theorem busRead_resetOf (z : BlockSize) {a : BitVec 8} (hid : a ≠ 0x00) (hparam : a ≠ 0x04) :
    busRead (Controller.resetOf z) a = 0 := by
  unfold busRead
  cases hr : regAt a with
  | none => rfl
  | some r =>
    have ha : a = r.offset := offset_of_regAt hr
    exact readReg_resetOf z (fun h => hid (ha.trans (congrArg Reg.offset h)))
      (fun h => hparam (ha.trans (congrArg Reg.offset h)))

/-- With the three flags clear the interrupt line is low, whatever is enabled (R220). -/
theorem irq_of_flags_clear {c : Controller} (hdoutv : c.doutv = false) (hdone : c.done = false)
    (herr : c.err = false) : c.irq = false := by
  simp [Controller.irq, hdoutv, hdone, herr]

/-- Settles O10: the cycle leaves R250's values, whose flags are clear; its read saw the state before. -/
theorem resetCycleSetsEveryField : Obligations.ResetCycleSetsEveryField := by
  intro s hrst
  obtain ⟨s', hstep, hst, hrdata⟩ := step_of_reset hrst
  refine ⟨s', hstep, hst, fun hsel hwe => hrdata.trans (cycleRdata_of_read hsel hwe), ?_⟩
  rw [hst]
  exact ⟨busRead_resetOf _ (by decide) (by decide), busRead_resetOf _ (by decide) (by decide), rfl,
    irq_of_flags_clear rfl rfl rfl⟩

/-- Settles O11: ID and PARAM do not depend on the fields that reset clears; every other register reads 0. -/
theorem registersReadAfterReset : Obligations.RegistersReadAfterReset := by
  intro z a
  refine eq_ite_of_imp (fun hid => ?_) fun hid => eq_ite_of_imp (fun hparam => ?_) (busRead_resetOf z hid)
  · rw [hid]
    exact busRead_offset _ .id
  · rw [hparam]
    exact (busRead_offset _ .param).trans (paramWord_eq_ofNat (Controller.resetOf z))

/-! ## The staging registers beside the block in flight (R264) -/

/-- The contents of the staging registers (R31, R30). -/
structure Staging where
  inten : BitVec 3
  nonceLen : BitVec 6
  msgLen : BitVec 64
  nonce : Bytes
  din : Bytes

/-- The controller with other contents in its staging registers. -/
def restage (g : Staging) (c : Controller) : Controller :=
  { c with inten := g.inten, nonceLen := g.nonceLen, msgLen := g.msgLen, nonce := g.nonce, din := g.din }

section
variable (g : Staging) (c : Controller)

/-- Error entry neither reads nor changes the staging registers (R209). -/
theorem raiseError_restage (code : ErrCode) : (restage g c).raiseError code = restage g (c.raiseError code) := by
  unfold Controller.raiseError
  rw [apply_ite (restage g)]
  rfl

/-- Nor does a response (R150 to R153). -/
theorem coreRespond_restage (m : Bytes) (e : Bool) :
    (restage g c).coreRespond m e = restage g (c.coreRespond m e) := by
  have hstate : (restage g c).state = c.state := rfl
  unfold Controller.coreRespond
  rw [hstate]
  cases c.state with
  | busy =>
    cases e with
    | false => rfl
    | true => exact raiseError_restage g c.endRequest .keySetup
  | _ => rfl

/-- Nor does an acceptance (R148). -/
theorem acceptPhase_restage (p : Ports) : acceptPhase (restage g c) p = restage g (acceptPhase c p) :=
  (apply_ite (restage g) ((c.reqPend && p.coreReqReady) = true) c.coreAccept c).symm

/-- The core's part of a cycle is the same whatever stands in the staging registers, and leaves them (R264). -/
theorem corePhase_restage (p : Ports) : (restage g c).corePhase p = restage g (c.corePhase p) := by
  rw [corePhase_eq_respond_accept, corePhase_eq_respond_accept, acceptPhase_restage, coreRespond_restage,
    apply_ite (restage g)]
  rfl

end

/-- Settles O54: acceptance, response and error entry neither read nor change the staging registers. -/
theorem stagingWritesDoNotTouchTheBlockInFlight : Obligations.StagingWritesDoNotTouchTheBlockInFlight :=
  fun c p inten nonceLen msgLen nonce din => corePhase_restage ⟨inten, nonceLen, msgLen, nonce, din⟩ c p

/-! ## The timing of a block (R270) -/

/-- A run of one more cycle. -/
theorem core_run_succ {s t : State} (h : step s = .next t) (k : Nat) :
    Sys2Proof.core.run (k + 1) s = Sys2Proof.core.run k t := by
  have hstep : Sys2Proof.core.step s = .next t := h
  simp only [Host.Core.run, hstep]

/-- A cycle uses up its inputs. -/
theorem step_inputs {s t : State} (h : step s = .next t) : t.inputs = s.inputs.tail := by
  rw [step_next h, State.endCycle_inputs, (cycleState_inputs_cycle s).1]

/-- The ports of a cycle are the first scripted ones. -/
theorem ports_of_inputs {s : State} {p : Ports} {ps : List Ports} (h : s.inputs = p :: ps) : s.ports = p :=
  congrArg (List.headD · _) h

/-- BLOCK written in READY, where the core has nothing to do, issues the request (R145). -/
theorem step_block_of_ready {s : State} (hinv : Inv s.st) (hready : s.st.state = .ready) (hrst : s.ports.rst = false)
    (hw : writes s.ports 0x08 0x00000004) : ∃ t, step s = .next t ∧ t.st = s.st.runBlock := by
  obtain ⟨t, hcore, _, hst⟩ := step_of_cmdWrite hrst hw (step_eq s)
  have hquiet : s.st.inFlight = false := inv_quiet hinv (by simp [hready]) (by simp [hready])
  rw [corePhase_of_not_inFlight hquiet] at hcore
  have hblock := exec_block_of_ready (s := t) (hcore ▸ hready)
  refine ⟨_, step_eq s, ?_⟩
  rw [hst, execState_wrCmd, ← hcore]
  exact congrArg State.st (execState_of_exec hblock)

/-- A cycle with nothing but the core's acceptance of the pending request (R148). -/
theorem step_accept {s : State} (hinv : Inv s.st) (hrst : s.ports.rst = false) (hsel : s.ports.busSel = false)
    (hpend : s.st.reqPend = true) (hready : s.ports.coreReqReady = true) :
    ∃ t, step s = .next t ∧ t.st = s.st.coreAccept := by
  have hout : s.st.outst = false := Bool.eq_false_iff.mpr fun ho => hinv.one_request ⟨hpend, ho⟩
  obtain ⟨t, hstep, hst⟩ := step_of_no_access hrst hsel
  refine ⟨t, hstep, ?_⟩
  simp [hst, Controller.corePhase, hpend, hready, hout]

/-- A cycle with nothing but a response without an error in BUSY completes the block (R150). -/
theorem step_complete {s : State} (hinv : Inv s.st) (hrst : s.ports.rst = false) (hsel : s.ports.busSel = false)
    (hbusy : s.st.state = .busy) (htaken : responseTaken s) (hok : s.ports.coreRspErr = false) :
    ∃ t, step s = .next t ∧
      t.st = s.st.completeBlock (unpackBlock s.st.size.bytes s.ports.coreRspBlock) := by
  obtain ⟨t, hstep, hst⟩ := step_of_no_access hrst hsel
  refine ⟨t, hstep, ?_⟩
  rw [hst, corePhase_of_responseTaken hinv htaken, coreRespond_of_busy hbusy, hok]
  rfl

/-- A completed block leaves READY or IDLE (R150). -/
theorem completeBlock_state (c : Controller) (m : Bytes) :
    (c.completeBlock m).state = .ready ∨ (c.completeBlock m).state = .idle :=
  (ite_eq_or_eq _ _ _).symm

/-- Settles O59: the three cycles are BLOCK, the acceptance and the response, each from the state the one before left. -/
theorem blockTakesThreeCycles : Obligations.BlockTakesThreeCycles := by
  intro s p0 p1 p2 ps hinv hready hinputs hrst0 hrst1 hrst2 hwrite hsel1 hsel2 haccept hvalid hok
  obtain rfl := ports_of_inputs hinputs
  obtain ⟨s1, hstep1, hst1⟩ := step_block_of_ready hinv hready hrst0 hwrite
  have hinputs1 : s1.inputs = p1 :: p2 :: ps := by rw [step_inputs hstep1, hinputs, List.tail_cons]
  have hinv1 := (stepKeepsInvariants s s1 hinv hstep1).1
  obtain rfl := ports_of_inputs hinputs1
  obtain ⟨s2, hstep2, hst2⟩ := step_accept hinv1 hrst1 hsel1 (hst1 ▸ rfl) haccept
  have hinputs2 : s2.inputs = p2 :: ps := by rw [step_inputs hstep2, hinputs1, List.tail_cons]
  have hinv2 := (stepKeepsInvariants s1 s2 hinv1 hstep2).1
  obtain rfl := ports_of_inputs hinputs2
  rw [hst1] at hst2
  obtain ⟨s3, hstep3, hst3⟩ := step_complete hinv2 hrst2 hsel2 (hst2 ▸ rfl) ⟨hvalid, hst2 ▸ rfl⟩ hok
  have hrun : Sys2Proof.core.run 3 s = .next s3 := by
    rw [core_run_succ hstep1, core_run_succ hstep2, core_run_succ hstep3]
    rfl
  refine ⟨s3, hrun, by rw [step_inputs hstep3, hinputs2, List.tail_cons], ?_⟩
  rw [hst3, hst2]
  refine ⟨rfl, completeBlock_state _ _, ?_, rfl⟩
  rw [← chunkLen_eq_min]
  rfl

end Sys2Proof.Proofs
end
